-- ==== Sys2Proof/Word.lean ====
section
/-! DEFINITION. The two widths the hardware works in (00_scope.md R6, R8). -/

namespace Sys2Proof

/-- `u32`: an unsigned 32-bit word; `+` on it is addition modulo 2^32 (R8). -/
abbrev Word := BitVec 32

/-- `byte`: an unsigned 8-bit value (R8). -/
abbrev Byte := BitVec 8

end Sys2Proof
end

