-- ==== Sys2Proof/Config.lean ====
section
/-! DEFINITION. What is fixed for the machine (00_scope.md R6, R7) and the free values.
`BASE` is a field of State (log entry 1); `N_INSTANCES` is the length of a System (log entry 14). -/

namespace Sys2Proof.Config

/-- `WINDOW_SIZE`, in bytes (R7). -/
def windowSize : Nat := 0x40

/-- The one legal access size, in bytes: `BUS_WIDTH` is 32 bits (R7). -/
def busBytes : Nat := 4

/-- `UPDATE_MAX_BYTES` (R7). -/
def updateMaxBytes : Nat := 4

/-- Free value (log entry 5): element `elem` of the transform working state after draw number `draw`.
10_state.md R32 calls these values not architectural and 93 U4 any value. -/
opaque freeWord (draw elem : Nat) : Word

/-- Free value (log entry 3): at draw number `draw`, how many turns the host gets before the engine's next, where both
can move and the list of turns is used up. 20_memory.md R50: any enabled step may be taken next; R51: an engine step
that stays enabled is eventually taken, so the number is finite. -/
opaque freeHostTurns (draw : Nat) : Nat

end Sys2Proof.Config
end

