-- ==== Sys2Proof/Syntax.lean ====
section
/-! DEFINITION. The instructions: one constructor per row of spec/opcode_table.json. -/

namespace Sys2Proof

/-- The three commands of format `CMD32` (30_encoding.md R81) and the four internal step forms of format
`STEP6` (R86). -/
inductive Instr where
  /-- INIT (40 R110). -/
  | init
  /-- UPDATE n (40 R111): `n` is the 3-bit count N, bits 6:4; legal 0 to 4 (R84). -/
  | update (n : BitVec 3)
  /-- FINAL (41 R130). -/
  | final
  /-- STEP_F (43 R175): step index `i` with `i[5:4] = 0` and `i[3:0] = j`. -/
  | stepF (j : BitVec 4)
  /-- STEP_G (43 R175): step index `i` with `i[5:4] = 1` and `i[3:0] = j`. -/
  | stepG (j : BitVec 4)
  /-- STEP_H (43 R175): step index `i` with `i[5:4] = 2` and `i[3:0] = j`. -/
  | stepH (j : BitVec 4)
  /-- STEP_I (43 R175): step index `i` with `i[5:4] = 3` and `i[3:0] = j`. -/
  | stepI (j : BitVec 4)
  deriving DecidableEq, Repr

end Sys2Proof
end

