-- ==== Sys2Proof/Machine/State.lean ====
section
/-! DEFINITION. The state of one engine instance (10_state.md R20 to R32, R43, R44) with the host that
drives it (20_memory.md R50). Plain data throughout. -/

namespace Sys2Proof.Machine

/-- Four 32-bit words, named A to D: STATE, the working words, the saved words and DIGEST are all of this
shape (10_state.md R20, R29, R32). -/
structure Quad where
  a : Word
  b : Word
  c : Word
  d : Word
  deriving DecidableEq, Repr

/-- The four words all zero. -/
def Quad.zero : Quad := { a := 0, b := 0, c := 0, d := 0 }

/-- 64 bytes: BUF, or one block of the message (10_state.md R22). -/
abbrev Block := Vector Byte 64

/-- 64 zero bytes. -/
def Block.zero : Block := Vector.replicate 64 0

/-- The context, the source's DigestContext (10_state.md section 1). -/
structure Ctx where
  /-- STATE[0..3] (R20). -/
  state : Quad
  /-- `{BITCNT_HI, BITCNT_LO}` (R21). -/
  bitCount : BitVec 64
  /-- BUF[0..63] (R22). -/
  buf : Block
  deriving DecidableEq, Repr

/-- The wiped context (R43, 41 R137). -/
def Ctx.zero : Ctx := { state := Quad.zero, bitCount := 0, buf := Block.zero }

/-- PHASE (R27). -/
inductive Phase where
  | uninit
  | active
  | done
  deriving DecidableEq, Repr

/-- The operation of an accepted command (R28). -/
inductive Op where
  | init
  | update
  | final
  deriving DecidableEq, Repr

/-- One accepted command: `(op, n, din_snapshot)` (R28). -/
structure Pending where
  op : Op
  n : Fin 5
  snap : Word
  deriving DecidableEq, Repr

/-- The four sticky error flags (R30). -/
structure ErrFlags where
  misuse : Bool
  busy : Bool
  cmd : Bool
  access : Bool
  deriving DecidableEq, Repr

/-- No error flag set. -/
def ErrFlags.clear : ErrFlags := { misuse := false, busy := false, cmd := false, access := false }

/-- The working state of the transform pipeline but for its step counter (R32). -/
structure Work where
  /-- The working words a, b, c, d. -/
  cur : Quad
  /-- The saved words A0, B0, C0, D0. -/
  saved : Quad
  /-- The decoded block M[0..15]. -/
  m : Vector Word 16
  deriving DecidableEq, Repr

/-- The working state all zero. -/
def Work.zero : Work := { cur := Quad.zero, saved := Quad.zero, m := Vector.replicate 16 0 }

/-- The two agents of one instance (20_memory.md R50). -/
inductive Agent where
  | host
  | engine
  deriving DecidableEq, Repr

/-- One thing the host does to the instance (70 R246). Addresses and sizes are numbers (log entry 12). -/
inductive HostAction where
  /-- `MemRead(addr, size)` (20 R52). -/
  | read (addr size : Nat)
  /-- `MemWrite(addr, size, v)` (20 R52). -/
  | write (addr size : Nat) (v : Word)
  /-- The loop `WAIT`, which reads STATUS until BUSY = 0 is read (30 R88); every pass is one access (log entry 4). -/
  | wait
  /-- The reset event (70 R230). -/
  | reset
  deriving DecidableEq, Repr

/-- The state of one instance and its host. -/
structure State where
  /-- The context (R20 to R22). -/
  ctx : Ctx
  /-- PHASE (R27). -/
  phase : Phase
  /-- PENDING (R28); BUSY is whether it is some. -/
  pending : Option Pending
  /-- DIGEST[0..3] (R29). -/
  digest : Quad
  /-- DVALID (R29). -/
  dvalid : Bool
  /-- The error flags (R30). -/
  err : ErrFlags
  /-- DIN (R31). -/
  din : Word
  /-- The transform working state (R32). -/
  work : Work
  /-- The step counter `i` while a transform runs, none between transforms (R32, log entry 7). -/
  seq : Option (BitVec 6)
  /-- BASE, the address of the window (00 R7, log entry 1); no step changes it. -/
  base : Nat
  /-- The model's own: the host's accesses not yet made, in issue order (log entry 2). -/
  host : List HostAction
  /-- The model's own: who moves next where both agents can (log entry 3). -/
  turns : List Agent
  /-- The model's own: the values the host's reads returned, oldest first (log entry 2). -/
  reads : List Word
  /-- The model's own: how many free values have been drawn (log entries 3 and 5). -/
  draws : Nat
  deriving DecidableEq, Repr

/-- The state after reset of an instance whose window is at `base` (R43, 70 R230). The working state,
for which the spec gives no value, is 0 (DESIGN CHOICE, log entry 6). -/
def State.resetAt (base : Nat) : State where
  ctx := Ctx.zero
  phase := .uninit
  pending := none
  digest := Quad.zero
  dvalid := false
  err := ErrFlags.clear
  din := 0
  work := Work.zero
  seq := none
  base := base
  host := []
  turns := []
  reads := []
  draws := 0

/-- The state after reset, with the window at 0 (DESIGN CHOICE, unsafe where a claim leans on it: log entry 1). -/
def State.reset : State := State.resetAt 0

/-- Why a step stops. Errors of the hardware are STATUS bits, never one of these (60 R200). -/
inductive Fault where
  /-- Raised by the host's bus access (`hostAct`) where the address is outside the window: the spec has no
  step for it (20 R53, 60 R225, 93 U10). Safe: such a program has no run here. -/
  | outsideWindow
  deriving DecidableEq, Repr

/-- Why an instruction has no meaning. -/
inductive Refusal where
  /-- Raised by an arm of `exec` whose instruction has no meaning yet; no arm does. Safe. -/
  | notModelled (mnemonic : String)
  deriving DecidableEq, Repr

/-- The answer of a meaning and of a step. -/
abbrev Result := Host.Outcome State Fault Refusal

end Sys2Proof.Machine
end

