-- ==== Sys2Proof/Machine/Flags.lean ====
section
/-! DEFINITION. The flags: FILL, BUSY, the STATUS word, raising an error and clearing errors
(10 R26 to R30, R37; 20 R58, R59; 60 R200 to R211). -/

namespace Sys2Proof.Machine

/-- BITCNT_LO (10 R21). -/
def Ctx.bitCountLo (c : Ctx) : Word := c.bitCount.extractLsb' 0 32

/-- BITCNT_HI (10 R21). -/
def Ctx.bitCountHi (c : Ctx) : Word := c.bitCount.extractLsb' 32 32

/-- `fill(ctx) = (bitCount >> 3) mod 64` (10 R26). -/
def Ctx.fill (c : Ctx) : Nat := (c.bitCount.toNat >>> 3) % 64

/-- BUSY (10 R28). -/
def State.busy (s : State) : Bool := s.pending.isSome

/-- The encoding of PHASE (10 R27). -/
def Phase.enc : Phase → Word
  | .uninit => 0
  | .active => 1
  | .done => 2

/-- A one-bit field at bit `k` of a word. -/
def flagBit (b : Bool) (k : Nat) : Word := (if b then 1 else 0 : Word) <<< k

/-- The STATUS word (20 R58): the reserved bits are 0. -/
def State.statusWord (s : State) : Word :=
  flagBit s.err.access 19 ||| flagBit s.err.cmd 18 ||| flagBit s.err.busy 17 ||| flagBit s.err.misuse 16
    ||| (BitVec.ofNat 32 s.ctx.fill <<< 4) ||| (s.phase.enc <<< 2) ||| flagBit s.dvalid 1 ||| flagBit s.busy 0

/-- The four errors (60 R206). -/
inductive ErrorKind where
  | misuse
  | busy
  | cmd
  | access
  deriving DecidableEq, Repr

/-- The cause code: the error's STATUS bit number (60 R206). -/
def ErrorKind.code : ErrorKind → Nat
  | .misuse => 16
  | .busy => 17
  | .cmd => 18
  | .access => 19

/-- The flag of an error. -/
def ErrFlags.get (f : ErrFlags) : ErrorKind → Bool
  | .misuse => f.misuse
  | .busy => f.busy
  | .cmd => f.cmd
  | .access => f.access

/-- The flags with one of them set. -/
def ErrFlags.set (f : ErrFlags) : ErrorKind → ErrFlags
  | .misuse => { f with misuse := true }
  | .busy => { f with busy := true }
  | .cmd => { f with cmd := true }
  | .access => { f with access := true }

/-- `raise ERR_X` (60 R200, R210): the one operation by which every error is taken. It sets the sticky flag
and does nothing else: no state is saved and control goes nowhere. -/
def State.raise (e : ErrorKind) (s : State) : State := { s with err := s.err.set e }

/-- The write of 1s that clears error flags (20 R59, 60 R211): the return from an error. -/
def State.clearErrors (v : Word) (s : State) : State :=
  { s with
    err :=
      { misuse := s.err.misuse && !v.getLsbD 16
        busy := s.err.busy && !v.getLsbD 17
        cmd := s.err.cmd && !v.getLsbD 18
        access := s.err.access && !v.getLsbD 19 } }

end Sys2Proof.Machine
end

