-- ==== Sys2Proof/Machine/Operands.lean ====
section
/-! DEFINITION. Operand forms and byte order (20_memory.md R62 to R65, R69; 30_encoding.md R84; 00_scope.md R8). -/

namespace Sys2Proof.Machine

/-- `byte_j(w) = w[8j+7:8j]` (00 R8); 0 above the top of `w`. -/
def byteOf {n : Nat} (w : BitVec n) (j : Nat) : Byte := w.extractLsb' (8 * j) 8

/-- `LE32(b0, b1, b2, b3)` (00 R8). -/
def le32 (b0 b1 b2 b3 : Byte) : Word := b3 ++ b2 ++ b1 ++ b0

/-- The data of an UPDATE of `n` bytes: lanes 0 to `n - 1` of the snapshot, lane 0 first (20 R65, 30 R84). -/
def lanes (snap : Word) (n : Nat) : List Byte := (List.range n).map (byteOf snap)

/-- The 8 bytes of the length field, least significant first (20 R63). -/
def lengthBytes (bits : BitVec 64) : List Byte := (List.range 8).map (byteOf bits)

/-- Byte `i` of a block. -/
def Block.get (blk : Block) (i : Nat) : Byte := blk.getD i 0

/-- The first 64 bytes of a sequence as a block. -/
def Block.ofList (bytes : List Byte) : Block := Vector.ofFn fun i => bytes.getD i.val 0

/-- Block decode: `M[j] = LE32(blk[4j], blk[4j+1], blk[4j+2], blk[4j+3])` (20 R62). -/
def decodeBlock (blk : Block) : Vector Word 16 :=
  Vector.ofFn fun j =>
    le32 (blk.get (4 * j.val)) (blk.get (4 * j.val + 1)) (blk.get (4 * j.val + 2)) (blk.get (4 * j.val + 3))

/-- Word `k` of four, for `k` = 0 to 3. -/
def Quad.word (q : Quad) (k : Fin 4) : Word :=
  match k with
  | 0 => q.a
  | 1 => q.b
  | 2 => q.c
  | 3 => q.d

/-- Digest byte `4k + j` is `byte_j` of word `k` (20 R64). -/
def Quad.digestByte (q : Quad) (i : Fin 16) : Byte :=
  byteOf (q.word ⟨i.val / 4, by omega⟩) (i.val % 4)

end Sys2Proof.Machine
end

