-- ==== Sys2Proof/Machine/RoundTable.lean ====
section
/-! DEFINITION. The round table (43_round_processor.md R176), row by row as the spec lists it; its columns are the
spec's general knowledge (PRESUMED, log entry 15). -/

namespace Sys2Proof.Machine

/-- The rows `(g(i), s(i), K(i))` of group 0, steps 0 to 15. -/
def roundRowsF : List (Fin 16 × Nat × Word) :=
  [(0, 7, 0xd76aa478), (1, 12, 0xe8c7b756), (2, 17, 0x242070db), (3, 22, 0xc1bdceee),
   (4, 7, 0xf57c0faf), (5, 12, 0x4787c62a), (6, 17, 0xa8304613), (7, 22, 0xfd469501),
   (8, 7, 0x698098d8), (9, 12, 0x8b44f7af), (10, 17, 0xffff5bb1), (11, 22, 0x895cd7be),
   (12, 7, 0x6b901122), (13, 12, 0xfd987193), (14, 17, 0xa679438e), (15, 22, 0x49b40821)]

/-- The rows of group 1, steps 16 to 31. -/
def roundRowsG : List (Fin 16 × Nat × Word) :=
  [(1, 5, 0xf61e2562), (6, 9, 0xc040b340), (11, 14, 0x265e5a51), (0, 20, 0xe9b6c7aa),
   (5, 5, 0xd62f105d), (10, 9, 0x02441453), (15, 14, 0xd8a1e681), (4, 20, 0xe7d3fbc8),
   (9, 5, 0x21e1cde6), (14, 9, 0xc33707d6), (3, 14, 0xf4d50d87), (8, 20, 0x455a14ed),
   (13, 5, 0xa9e3e905), (2, 9, 0xfcefa3f8), (7, 14, 0x676f02d9), (12, 20, 0x8d2a4c8a)]

/-- The rows of group 2, steps 32 to 47. -/
def roundRowsH : List (Fin 16 × Nat × Word) :=
  [(5, 4, 0xfffa3942), (8, 11, 0x8771f681), (11, 16, 0x6d9d6122), (14, 23, 0xfde5380c),
   (1, 4, 0xa4beea44), (4, 11, 0x4bdecfa9), (7, 16, 0xf6bb4b60), (10, 23, 0xbebfbc70),
   (13, 4, 0x289b7ec6), (0, 11, 0xeaa127fa), (3, 16, 0xd4ef3085), (6, 23, 0x04881d05),
   (9, 4, 0xd9d4d039), (12, 11, 0xe6db99e5), (15, 16, 0x1fa27cf8), (2, 23, 0xc4ac5665)]

/-- The rows of group 3, steps 48 to 63. -/
def roundRowsI : List (Fin 16 × Nat × Word) :=
  [(0, 6, 0xf4292244), (7, 10, 0x432aff97), (14, 15, 0xab9423a7), (5, 21, 0xfc93a039),
   (12, 6, 0x655b59c3), (3, 10, 0x8f0ccc92), (10, 15, 0xffeff47d), (1, 21, 0x85845dd1),
   (8, 6, 0x6fa87e4f), (15, 10, 0xfe2ce6e0), (6, 15, 0xa3014314), (13, 21, 0x4e0811a1),
   (4, 6, 0xf7537e82), (11, 10, 0xbd3af235), (2, 15, 0x2ad7d2bb), (9, 21, 0xeb86d391)]

/-- All 64 rows in step order. -/
def roundRows : List (Fin 16 × Nat × Word) := roundRowsF ++ roundRowsG ++ roundRowsH ++ roundRowsI

/-- The row of step `i`. -/
def roundRow (i : BitVec 6) : Fin 16 × Nat × Word := roundRows.getD i.toNat (0, 0, 0)

/-- `g(i)`, the block-word index. -/
def wordIndex (i : BitVec 6) : Fin 16 := (roundRow i).1

/-- `s(i)`, the shift amount. -/
def shiftAmount (i : BitVec 6) : Nat := (roundRow i).2.1

/-- `K(i)`, the round constant. -/
def roundConst (i : BitVec 6) : Word := (roundRow i).2.2

end Sys2Proof.Machine
end

