-- ==== Sys2Proof/Machine/Round.lean ====
section
/-! DEFINITION. The round processor and the block transform as functions (43 R170 to R175, 42 R150 to R154). -/

namespace Sys2Proof.Machine

/-- F (43 R170). -/
def mixF (x y z : Word) : Word := (x &&& y) ||| (~~~x &&& z)

/-- G (43 R171). -/
def mixG (x y z : Word) : Word := (x &&& z) ||| (y &&& ~~~z)

/-- H (43 R172). -/
def mixH (x y z : Word) : Word := x ^^^ y ^^^ z

/-- I (43 R173). -/
def mixI (x y z : Word) : Word := y ^^^ (x ||| ~~~z)

/-- `rotl32(x, s)` (43 R174). -/
def rotl32 (x : Word) (s : Nat) : Word := (x <<< s) ||| (x >>> (32 - s))

/-- Step(i, (a, b, c, d), M) with the mixing function `f` (43 R175): the new working words. -/
def stepWords (f : Word → Word → Word → Word) (i : BitVec 6) (q : Quad) (m : Vector Word 16) : Quad :=
  let t := q.a + f q.b q.c q.d + m[wordIndex i] + roundConst i
  { a := q.d, b := q.b + rotl32 t (shiftAmount i), c := q.b, d := q.c }

/-- The mixing function of the group `i[5:4]` (43 R175, 42 R153). -/
def mixOf (i : BitVec 6) : Word → Word → Word → Word :=
  if i.extractLsb' 4 2 = 0 then mixF
  else if i.extractLsb' 4 2 = 1 then mixG
  else if i.extractLsb' 4 2 = 2 then mixH
  else mixI

/-- The steps whose indices are listed, in that order. -/
def runSteps (m : Vector Word 16) : List (BitVec 6) → Quad → Quad
  | [], q => q
  | i :: is, q => runSteps m is (stepWords (mixOf i) i q m)

/-- The step indices 0 to 63 in order (42 R153). -/
def stepIndices : List (BitVec 6) := (List.range 64).map (BitVec.ofNat 6)

/-- Feed-forward: each word plus its saved word, modulo 2^32 (42 R154). -/
def feedForward (saved q : Quad) : Quad :=
  { a := saved.a + q.a, b := saved.b + q.b, c := saved.c + q.c, d := saved.d + q.d }

/-- Transform (42 R150): load (R151), 64 steps (R152, R153), feed-forward (R154). -/
def transform (st : Quad) (blk : Block) : Quad :=
  feedForward st (runSteps (decodeBlock blk) stepIndices st)

/-- Transform on each of the first `k` spans of 64 bytes of `bytes`, in order (40 R112). -/
def transformSpans : Nat → Quad → List Byte → Quad
  | 0, st, _ => st
  | k + 1, st, bytes => transformSpans k (transform st (Block.ofList bytes)) (bytes.drop 64)

end Sys2Proof.Machine
end

