-- ==== Sys2Proof/Machine/Ops.lean ====
section
/-! DEFINITION. The shared operations on the context and on the state: the buffer primitives, Absorb, padding,
the three Perform operations, and acceptance (20 R51, R69; 40; 41; 60 R201; 70 R230). -/

namespace Sys2Proof.Machine

/-- BufWrite of each byte of a sequence, from index `at` up (20 R69). -/
def bufWriteRun : Block → Nat → List Byte → Block
  | buf, _, [] => buf
  | buf, idx, b :: bs => bufWriteRun (buf.setIfInBounds idx b) (idx + 1) bs

/-- The counter after `len` more bytes: `(bitCount + 8 × len) mod 2^64` (40 R113). -/
def addBits (bits : BitVec 64) (len : Nat) : BitVec 64 := bits + BitVec.ofNat 64 (8 * len)

/-- Absorb (40 R112). The fill is the one before the counter moves. -/
def absorb (c : Ctx) (data : List Byte) : Ctx :=
  let space := 64 - c.fill
  if space ≤ data.length then
    let full := bufWriteRun c.buf c.fill (data.take space)
    let rest := data.drop space
    { state := transformSpans (rest.length / 64) (transform c.state full) rest
      bitCount := addBits c.bitCount data.length
      buf := bufWriteRun full 0 (rest.drop (64 * (rest.length / 64))) }
  else
    { state := c.state
      bitCount := addBits c.bitCount data.length
      buf := bufWriteRun c.buf c.fill data }

/-- The unconsumed input, BUF[0..fill-1] (10 R22). -/
def Ctx.tail (c : Ctx) : List Byte := (List.range c.fill).map c.buf.get

/-- How many block transforms Absorb runs on `len` bytes (40 R112, R116). -/
def absorbTransforms (c : Ctx) (len : Nat) : Nat := (c.fill + len) / 64

/-- The initial context: the IV, a zero counter and a zero buffer (40 R110). -/
def Ctx.initial : Ctx where
  state := { a := 0x67452301, b := 0xefcdab89, c := 0x98badcfe, d := 0x10325476 }
  bitCount := 0
  buf := Block.zero

/-- PadCount (41 R131). -/
def padCount (fill : Nat) : Nat := if fill < 56 then 56 - fill else 120 - fill

/-- The pad for a fill: 0x80 and then zeros (41 R133). -/
def padBytes (fill : Nat) : List Byte := 0x80 :: List.replicate (padCount fill - 1) 0x00

/-- The context after the pad and the length field, just before extraction (41 R130, R132 to R134). -/
def finished (c : Ctx) : Ctx := absorb (absorb c (padBytes c.fill)) (lengthBytes c.bitCount)

/-- The working state after draw number `draw`: all of it free (log entry 5). -/
def freeWork (draw : Nat) : Work where
  cur :=
    { a := Config.freeWord draw 0, b := Config.freeWord draw 1, c := Config.freeWord draw 2
      d := Config.freeWord draw 3 }
  saved :=
    { a := Config.freeWord draw 4, b := Config.freeWord draw 5, c := Config.freeWord draw 6
      d := Config.freeWord draw 7 }
  m := Vector.ofFn fun j => Config.freeWord draw (8 + j.val)

/-- What `k` transforms leave in the working state: nothing changed for none, else a free value (10 R32). -/
def State.afterTransforms (k : Nat) (s : State) : State :=
  if k = 0 then s else { s with work := freeWork s.draws, draws := s.draws + 1 }

/-- PerformInit (40 R110). -/
def performInit (s : State) : State :=
  { s with ctx := Ctx.initial, digest := Quad.zero, dvalid := false, phase := .active }

/-- PerformUpdate(n, snap) (40 R111). -/
def performUpdate (n : Nat) (snap : Word) (s : State) : State :=
  { s with ctx := absorb s.ctx (lanes snap n) }.afterTransforms (absorbTransforms s.ctx n)

/-- Wipe (41 R137): the context and the transform working state. -/
def State.wipe (s : State) : State := { s with ctx := Ctx.zero, work := Work.zero, seq := none }

/-- PerformFinal (41 R130): pad, append the length, extract (R136), wipe (R137). -/
def performFinal (s : State) : State :=
  { s with digest := (finished s.ctx).state, dvalid := true, phase := .done }.wipe

/-- The last part of CmdWrite (60 R201) for a legal command: UPDATE and FINAL need PHASE = ACTIVE (R202), and
an accepted command becomes PENDING with the DIN of this moment as its snapshot. -/
def accept (op : Op) (n : Fin 5) (s : State) : State :=
  if op ≠ .init ∧ s.phase ≠ .active then s.raise .misuse
  else { s with pending := some { op := op, n := n, snap := s.din } }

/-- The next atomic transition of a command (log entry 8): where nothing is pending, its acceptance by the
host's CMD write (60 R201); where a command is pending, its performance by the engine, after which nothing is
pending (20 R51). `perform` is given the pending command's snapshot. -/
def runCommand (op : Op) (n : Fin 5) (perform : Word → State → State) (s : State) : Result :=
  match s.pending with
  | none => .next (accept op n s)
  | some p => .next { perform p.snap s with pending := none }

/-- The instruction an accepted command stands for (10 R28). -/
def Pending.instr (p : Pending) : Instr :=
  match p.op with
  | .init => .init
  | .update => .update (BitVec.ofNat 3 p.n.val)
  | .final => .final

/-- One step form on the working words (43 R175): nothing else is written (R178). -/
def runStep (f : Word → Word → Word → Word) (i : BitVec 6) (s : State) : Result :=
  .next { s with work := { s.work with cur := stepWords f i s.work.cur s.work.m } }

/-- The reset event (70 R230, R231): every element of R43 takes its reset value. BASE, the host's list, the
turns, the reads and the draw counter are no state of the instance and stay (log entry 11). -/
def State.resetEvent (s : State) : State :=
  { State.resetAt s.base with host := s.host, turns := s.turns, reads := s.reads, draws := s.draws }

end Sys2Proof.Machine
end

