-- ==== Sys2Proof/Machine/Commands.lean ====
section
/-! DEFINITION. The meanings of the three commands of format CMD32 (40_context_ops.md, 41_finalization.md). -/

namespace Sys2Proof.Machine

/-- INIT (40 R110): accepted in every PHASE; performed, it creates a fresh context. -/
def execInit (s : State) : Result := runCommand .init 0 (fun _ => performInit) s

/-- UPDATE n (40 R111): accepted only while ACTIVE; performed, it absorbs `n` bytes of the snapshot. A count
above 4 is no legal command word and raises ERR_CMD (60 R204; DEDUCED, log entry 16); the
decoder never gives one. -/
def execUpdate (n : BitVec 3) (s : State) : Result :=
  if h : n.toNat < 5 then runCommand .update ⟨n.toNat, h⟩ (performUpdate n.toNat) s
  else .next (s.raise .cmd)

/-- FINAL (41 R130): accepted only while ACTIVE; performed, it pads, extracts the digest and wipes. -/
def execFinal (s : State) : Result := runCommand .final 0 (fun _ => performFinal) s

end Sys2Proof.Machine
end

