-- ==== Sys2Proof/WellFormed.lean ====
section
/-! DEFINITION. Which instruction terms the encoding admits (30_encoding.md R82, R84, R86). -/

namespace Sys2Proof

/-- The count of an UPDATE is 0 to `UPDATE_MAX_BYTES` (R84); every other operand is admitted at every value. -/
def Instr.wellFormed : Instr → Bool
  | .init => true
  | .update n => n.toNat ≤ Config.updateMaxBytes
  | .final => true
  | .stepF _ => true
  | .stepG _ => true
  | .stepH _ => true
  | .stepI _ => true

end Sys2Proof
end

