-- ==== Sys2Proof/Decode.lean ====
section
/-! DEFINITION. The decoder, total on every word, and after it the encoder (30_encoding.md R80 to R86).
The two formats are two instruction spaces: a CMD word comes from the host's bus, a step index from the
transform sequencer, so no word is ever ambiguous between them. -/

namespace Sys2Proof

/-- Why a CMD word is illegal: the four kinds of 30_encoding.md R83. -/
inductive CmdError where
  /-- OP = 0 or OP ≥ 4. -/
  | reservedOpcode
  /-- INIT or FINAL with a nonzero bit in 31:4. -/
  | operandBitsNotZero
  /-- UPDATE with N ≥ 5. -/
  | countTooLarge
  /-- UPDATE with a nonzero bit in 31:7. -/
  | reservedBitsNotZero
  deriving DecidableEq, Repr

/-- The field OP, bits 3:0 (R80). -/
def cmdOp (w : Word) : BitVec 4 := w.extractLsb' 0 4

/-- The field N, bits 6:4 (R80). -/
def cmdN (w : Word) : BitVec 3 := w.extractLsb' 4 3

/-- The field RSV, bits 31:7 (R80). -/
def cmdRsv (w : Word) : BitVec 25 := w.extractLsb' 7 25

/-- Decode a word written to CMD (R80 to R83): the command, or the reason the word is illegal. -/
def decodeCmd (w : Word) : Except CmdError Instr :=
  if cmdOp w = 0x1 then
    if cmdN w = 0 ∧ cmdRsv w = 0 then .ok .init else .error .operandBitsNotZero
  else if cmdOp w = 0x2 then
    if cmdRsv w ≠ 0 then .error .reservedBitsNotZero
    else if 4 < (cmdN w).toNat then .error .countTooLarge
    else .ok (.update (cmdN w))
  else if cmdOp w = 0x3 then
    if cmdN w = 0 ∧ cmdRsv w = 0 then .ok .final else .error .operandBitsNotZero
  else .error .reservedOpcode

/-- Decode a step index (R86): `i[5:4]` is the group, so the mixing function, and `i[3:0]` the operand. -/
def decodeStep (i : BitVec 6) : Instr :=
  let j := i.extractLsb' 0 4
  let group := i.extractLsb' 4 2
  if group = 0 then .stepF j
  else if group = 1 then .stepG j
  else if group = 2 then .stepH j
  else .stepI j

/-- `legal(w)` of R82. -/
def cmdLegal (w : Word) : Bool :=
  match decodeCmd w with
  | .ok _ => true
  | .error _ => false

/-- The instruction the decoder reads from an instruction of `nbits` bits whose value is `w`. A width of at
most 8 bits is the space of the 6-bit step indices, any other the space of the CMD words (log entry 9). -/
def decodeTableWord (nbits w : Nat) : Option Instr :=
  if nbits ≤ 8 then
    if w < 2 ^ 6 then some (decodeStep (BitVec.ofNat 6 w)) else none
  else if w < 2 ^ 32 then
    match decodeCmd (BitVec.ofNat 32 w) with
    | .ok i => some i
    | .error _ => none
  else none

/-- The step index with group `g` and low bits `j` (R86). -/
def stepIndex (g : BitVec 2) (j : BitVec 4) : BitVec 6 := g ++ j

/-- A CMD word from its fields (R80). -/
def cmdWord (rsv : BitVec 25) (n : BitVec 3) (op : BitVec 4) : Word := rsv ++ n ++ op

/-- How many bits the opcode table gives the instruction, in whole bytes. -/
def Instr.nbits : Instr → Nat
  | .init => 32
  | .update _ => 32
  | .final => 32
  | .stepF _ => 8
  | .stepG _ => 8
  | .stepH _ => 8
  | .stepI _ => 8

/-- The word of an instruction (R81, R86), as a number. -/
def encode : Instr → Nat
  | .init => (cmdWord 0 0 0x1).toNat
  | .update n => (cmdWord 0 n 0x2).toNat
  | .final => (cmdWord 0 0 0x3).toNat
  | .stepF j => (stepIndex 0 j).toNat
  | .stepG j => (stepIndex 1 j).toNat
  | .stepH j => (stepIndex 2 j).toNat
  | .stepI j => (stepIndex 3 j).toNat

end Sys2Proof
end

