-- ==== Sys2Proof/Machine/RoundSteps.lean ====
section
/-! DEFINITION. The meanings of the four step forms of format STEP6 (43_round_processor.md R175). -/

namespace Sys2Proof.Machine

/-- STEP_F (43 R175 with F, R170): step `i = 00 j`. -/
def execStepF (j : BitVec 4) (s : State) : Result := runStep mixF (stepIndex 0 j) s

/-- STEP_G (43 R175 with G, R171): step `i = 01 j`. -/
def execStepG (j : BitVec 4) (s : State) : Result := runStep mixG (stepIndex 1 j) s

/-- STEP_H (43 R175 with H, R172): step `i = 10 j`. -/
def execStepH (j : BitVec 4) (s : State) : Result := runStep mixH (stepIndex 2 j) s

/-- STEP_I (43 R175 with I, R173): step `i = 11 j`. -/
def execStepI (j : BitVec 4) (s : State) : Result := runStep mixI (stepIndex 3 j) s

end Sys2Proof.Machine
end

