-- ==== Sys2Proof/Machine/Dispatch.lean ====
section
/-! DEFINITION. The one dispatch from an instruction to its meaning. -/

namespace Sys2Proof.Machine

def exec (i : Instr) (s : State) : Host.Outcome State Fault Refusal :=
  match i with
  | .init => Sys2Proof.Machine.execInit s
  | .update n => Sys2Proof.Machine.execUpdate n s
  | .final => Sys2Proof.Machine.execFinal s
  | .stepF j => Sys2Proof.Machine.execStepF j s
  | .stepG j => Sys2Proof.Machine.execStepG j s
  | .stepH j => Sys2Proof.Machine.execStepH j s
  | .stepI j => Sys2Proof.Machine.execStepI j s

end Sys2Proof.Machine
end

