-- ==== Sys2Proof/Machine/Bus.lean ====
section
/-! DEFINITION. The host's bus accesses (20_memory.md R52 to R61), the CMD write (60 R201) and the reset event. -/

namespace Sys2Proof.Machine

/-- The offset of an address in the window, or none outside it: `off = addr - BASE` (20 R52, R53). -/
def State.offset (s : State) (addr : Nat) : Option Nat :=
  if s.base ≤ addr ∧ addr - s.base < Config.windowSize then some (addr - s.base) else none

/-- What an offset reaches (10 R36). -/
inductive Reg where
  | cmd
  | din
  | status
  | digest (k : Fin 4)
  | reserved
  deriving DecidableEq, Repr

/-- The register at an aligned offset of the window (10 R36). -/
def regAt (off : Nat) : Reg :=
  if off = 0x00 then .cmd
  else if off = 0x04 then .din
  else if off = 0x08 then .status
  else if off = 0x10 then .digest 0
  else if off = 0x14 then .digest 1
  else if off = 0x18 then .digest 2
  else if off = 0x1C then .digest 3
  else .reserved

/-- Whether an access in the window is legal: 32 bits wide and aligned (20 R52, R66). -/
def accessLegal (off size : Nat) : Bool := size == Config.busBytes && off % 4 == 0

/-- The value a legal read of a register returns, or none where the read is not permitted (20 R54, R56, R58,
R60, R61). -/
def State.readReg (s : State) : Reg → Option Word
  | .cmd => none
  | .din => some s.din
  | .status => some s.statusWord
  | .digest k => some (s.digest.word k)
  | .reserved => none

/-- A read at offset `off` of the window: the value returned and the state after. An illegal read returns 0
and raises ERR_ACCESS (20 R53, R54, R61; 60 R205). -/
def busRead (off size : Nat) (s : State) : Word × State :=
  if accessLegal off size then
    match s.readReg (regAt off) with
    | some v => (v, s)
    | none => (0, s.raise .access)
  else (0, s.raise .access)

/-- CmdWrite(w) (60 R201): busy first (R203), then the encoding (R204), then the instruction's own acceptance,
which checks PHASE (R202). -/
def cmdWrite (w : Word) (s : State) : Result :=
  if s.busy then .next (s.raise .busy)
  else
    match decodeCmd w with
    | .error _ => .next (s.raise .cmd)
    | .ok i => exec i s

/-- A write at offset `off` of the window (20 R53, R55, R57, R59, R60, R61; 60 R205). -/
def busWrite (off size : Nat) (v : Word) (s : State) : Result :=
  if accessLegal off size then
    match regAt off with
    | .cmd => cmdWrite v s
    | .din => .next { s with din := v }
    | .status => .next (s.clearErrors v)
    | .digest _ => .next (s.raise .access)
    | .reserved => .next (s.raise .access)
  else .next (s.raise .access)

/-- A read at offset `off` of the window whose value the host keeps in `reads`. -/
def State.keepRead (off size : Nat) (s : State) : State :=
  { (busRead off size s).2 with reads := (busRead off size s).2.reads ++ [(busRead off size s).1] }

/-- One step of the loop `WAIT` (30 R88): RD STATUS, and again from the start if bit 0 of the value read is 1. -/
def State.pollStatus (s : State) : State :=
  let s' := s.keepRead 0x08 Config.busBytes
  if (busRead 0x08 Config.busBytes s).1.getLsbD 0 then { s' with host := .wait :: s'.host } else s'

/-- One action of the host on the instance (70 R246), already taken off the host's list. -/
def hostAct (a : HostAction) (s : State) : Result :=
  match a with
  | .read addr size =>
    match s.offset addr with
    | none => .fault .outsideWindow
    | some off => .next (s.keepRead off size)
  | .write addr size v =>
    match s.offset addr with
    | none => .fault .outsideWindow
    | some off => busWrite off size v s
  | .wait => .next s.pollStatus
  | .reset => .next s.resetEvent

end Sys2Proof.Machine
end

