-- ==== Sys2Proof/Machine/Turn.lean ====
section
/-! DEFINITION. Which agent moves next (20_memory.md R50) and the transform sequencer's part of a step
(42_block_transform.md R153, R154). -/

namespace Sys2Proof.Machine

/-- The engine's step is enabled exactly when a command is pending (20 R51). -/
def State.engineReady (s : State) : Bool := s.busy

/-- The host's step is enabled exactly when it has an access to make (20 R50). -/
def State.hostReady (s : State) : Bool := !s.host.isEmpty

/-- The agent that moves where both can, and the state with the turn taken: the next listed turn. Where none is
listed, a free number of turns is dealt to the host and then one to the engine (20 R50, R51, log entry 3). -/
def State.drawTurn (s : State) : Agent × State :=
  match s.turns with
  | t :: ts => (t, { s with turns := ts })
  | [] =>
    match Config.freeHostTurns s.draws with
    | 0 => (.engine, { s with draws := s.draws + 1 })
    | k + 1 => (.host, { s with turns := List.replicate k .host ++ [.engine], draws := s.draws + 1 })

/-- The agent that moves, if one can, and the state with the turn taken. -/
def State.nextAgent (s : State) : Option Agent × State :=
  match s.engineReady, s.hostReady with
  | true, true => (some s.drawTurn.1, s.drawTurn.2)
  | true, false => (some .engine, s)
  | false, true => (some .host, s)
  | false, false => (none, s)

/-- The host's step: the first action of its list. -/
def hostStep (s : State) : Result :=
  match s.host with
  | [] => .next s
  | a :: rest => hostAct a { s with host := rest }

/-- The engine's step (20 R51): run the pending command. -/
def engineStep (s : State) : Result :=
  match s.pending with
  | none => .next s
  | some p => exec p.instr s

/-- The sequencer after step `i` (42 R153, R154): the counter goes up by 1; after step 63 it stops, and STATE
takes the feed-forward of the working words. -/
def State.advanceSeq (i : BitVec 6) (s : State) : State :=
  if i = 63 then { s with seq := none, ctx := { s.ctx with state := feedForward s.work.saved s.work.cur } }
  else { s with seq := some (i + 1) }

/-- Apply `f` to a next state; a fault or a refusal stays. -/
def mapNext (f : State → State) : Result → Result
  | .next s => .next (f s)
  | .fault r => .fault r
  | .refused r => .refused r

/-- The next state of an answer, if it is one. -/
def nextOf : Result → Option State
  | .next s => some s
  | .fault _ => none
  | .refused _ => none

/-- Store a command word where the engine takes its next command, so that the very next step runs it: as the
accepted command where R201 accepts it, with the turn given to the engine if the host could move too; else as
a CMD write at the head of the host's list, so that the next step raises the error R201 names (log entry 9). -/
def State.placeCommand (s : State) (w : Word) : State :=
  let idle := { s with seq := none, pending := none }
  match decodeCmd w with
  | .error _ => { idle with host := .write s.base Config.busBytes w :: s.host }
  | .ok i =>
    match nextOf (exec i idle) with
    | none => idle
    | some s' =>
      if s'.busy then
        if s'.hostReady then { s' with turns := .engine :: s'.turns } else s'
      else { idle with host := .write s.base Config.busBytes w :: s.host }

end Sys2Proof.Machine
end

