-- ==== Sys2Proof/Machine/Step.lean ====
section
/-! DEFINITION. One step of the machine. -/

namespace Sys2Proof.Machine

/-- One step. While a transform runs, the sequencer issues the step its counter names and no other agent moves
(20 R51, 42 R153). Otherwise one enabled agent takes its step (20 R50). Where none is enabled nothing happens
(60 R224). -/
def step (s : State) : Host.Outcome State Fault Refusal :=
  match s.seq with
  | some i => mapNext (State.advanceSeq i) (exec (decodeStep i) s)
  | none =>
    match s.nextAgent with
    | (some .engine, s') => engineStep s'
    | (some .host, s') => hostStep s'
    | (none, s') => .next s'

/-- `s` with the instruction of `nbits` bits and value `w` stored where `step` takes its next instruction
(log entry 9): a step index of at most 8 bits in the sequencer's counter, a CMD word where the engine takes its
command. A value that does not fit its format changes nothing. -/
def State.withFetchWord (s : State) (nbits w : Nat) : State :=
  if nbits ≤ 8 then
    if w < 2 ^ 6 then { s with seq := some (BitVec.ofNat 6 w) } else s
  else if w < 2 ^ 32 then s.placeCommand (BitVec.ofNat 32 w)
  else s

end Sys2Proof.Machine
end

