-- ==== Sys2Proof/Machine/Instances.lean ====
section
/-! DEFINITION. Several independent instances (60_exceptions.md R226, 20_memory.md R70; 00_scope.md R7). -/

namespace Sys2Proof.Machine

/-- The instances of a system; `N_INSTANCES` is their number. -/
structure System where
  insts : List State
  deriving DecidableEq, Repr

/-- Every instance starts in the reset state, each with a window of its own (60 R226). -/
def System.reset (bases : List Nat) : System := { insts := bases.map State.resetAt }

/-- At least one instance, every BASE a multiple of 0x40, no two the same (00 R7, 60 R226). -/
def System.wf (sys : System) : Prop :=
  sys.insts ≠ [] ∧ (∀ s ∈ sys.insts, s.base % Config.windowSize = 0) ∧ (sys.insts.map (·.base)).Nodup

/-- One step of instance `k`. Nothing says which instance moves when: `k` is an argument (20 R70). -/
def System.stepAt (k : Nat) (sys : System) : Host.Outcome System Fault Refusal :=
  match sys.insts[k]? with
  | none => .next sys
  | some s =>
    match step s with
    | .next s' => .next { insts := sys.insts.set k s' }
    | .fault r => .fault r
    | .refused r => .refused r

end Sys2Proof.Machine
end

