-- ==== Sys2Proof/Machine/Listing.lean ====
section
/-! DEFINITION. The listing syntax and the pseudo-instructions as host actions on the window at `base`
(30_encoding.md R87, R88; 10_state.md R36). -/

namespace Sys2Proof.Machine

/-- Any word written to CMD (`CMD imm32`). -/
def lstCmd (base : Nat) (w : Word) : HostAction := .write base Config.busBytes w

/-- `INIT`, `UPDATE n` and `FINAL`: the instruction's word written to CMD. -/
def lstInstr (base : Nat) (i : Instr) : HostAction := lstCmd base (BitVec.ofNat 32 (encode i))

/-- `WR DIN, imm32`. -/
def lstWrDin (base : Nat) (v : Word) : HostAction := .write (base + 0x04) Config.busBytes v

/-- `WR STATUS, imm32`. -/
def lstWrStatus (base : Nat) (v : Word) : HostAction := .write (base + 0x08) Config.busBytes v

/-- `RD DIN`. -/
def lstRdDin (base : Nat) : HostAction := .read (base + 0x04) Config.busBytes

/-- `RD STATUS`. -/
def lstRdStatus (base : Nat) : HostAction := .read (base + 0x08) Config.busBytes

/-- `RD DIGESTk`. -/
def lstRdDigest (base : Nat) (k : Fin 4) : HostAction := .read (base + 0x10 + 4 * k.val) Config.busBytes

/-- `FEEDB b0 .. b(n-1)`, n = 0 to 4, absent bytes taken as 0; bytes past the fourth are not fed. -/
def lstFeedb (base : Nat) (bytes : List Byte) : List HostAction :=
  [ lstWrDin base (le32 (bytes.getD 0 0) (bytes.getD 1 0) (bytes.getD 2 0) (bytes.getD 3 0)),
    lstInstr base (.update (BitVec.ofNat 3 (min bytes.length Config.updateMaxBytes))),
    .wait ]

/-- `FEED s`: successive chunks of 4 bytes and one of the remaining 1 to 3. -/
def lstFeed (base : Nat) : List Byte → List HostAction
  | [] => []
  | b0 :: b1 :: b2 :: b3 :: rest => lstFeedb base [b0, b1, b2, b3] ++ lstFeed base rest
  | [b0] => lstFeedb base [b0]
  | [b0, b1] => lstFeedb base [b0, b1]
  | [b0, b1, b2] => lstFeedb base [b0, b1, b2]

/-- `CLRERR`. -/
def lstClrErr (base : Nat) : HostAction := lstWrStatus base 0x000F0000

/-- `DIGEST`. -/
def lstDigest (base : Nat) : List HostAction :=
  [lstInstr base .final, .wait, lstRdDigest base 0, lstRdDigest base 1, lstRdDigest base 2, lstRdDigest base 3]

/-- `HASH s`. -/
def lstHash (base : Nat) (bytes : List Byte) : List HostAction :=
  [lstInstr base .init, .wait] ++ lstFeed base bytes ++ lstDigest base

end Sys2Proof.Machine
end

