-- ==== Sys2Proof/Safety.lean ====
section
/-! DEFINITION. The terms claims are stated in: a run without errors, the invariant, what the host can see,
and the digest of a message as a function of the message. -/

namespace Sys2Proof.Machine

/-- No error bit is 1: the premise of a claim that a program hashes correctly (60 R225). -/
def State.noError (s : State) : Prop := s.err = ErrFlags.clear

/-- The end of a run: the host has made its last access and nothing is pending (70 R245). -/
def State.ended (s : State) : Prop := s.host = [] ∧ s.pending = none

/-- What holds in every state between steps, from reset on. -/
structure State.Inv (s : State) : Prop where
  /-- No transform is under way: a command is performed in one transition (20 R51). -/
  seqIdle : s.seq = none
  /-- BASE is a multiple of 0x40 (00 R7). -/
  baseAligned : s.base % Config.windowSize = 0
  /-- The counter counts whole bytes (10 R24). -/
  wholeBytes : s.ctx.bitCount.toNat % 8 = 0
  /-- DVALID is 1 exactly in DONE (10 R27, R29). -/
  dvalidDone : s.dvalid = true ↔ s.phase = .done
  /-- Until a FINAL has been performed DIGEST is 0 (20 R60). -/
  digestZero : s.dvalid = false → s.digest = Quad.zero
  /-- Outside ACTIVE the context is wiped (10 R43, 41 R137). -/
  wiped : s.phase ≠ .active → s.ctx = Ctx.zero
  /-- An UPDATE or a FINAL is pending only in ACTIVE (60 R201, R202). -/
  pendingActive : ∀ p, s.pending = some p → p.op ≠ .init → s.phase = .active
  /-- Only an UPDATE has a count (30 R80). -/
  pendingCount : ∀ p, s.pending = some p → p.op ≠ .update → p.n = 0

/-- The seven legal command words and what each stands for, as 30 R82 lists them. -/
def commandWords : List (Word × Instr) :=
  [ (0x00000001, .init), (0x00000002, .update 0), (0x00000012, .update 1), (0x00000022, .update 2),
    (0x00000032, .update 3), (0x00000042, .update 4), (0x00000003, .final) ]

/-- The six words of UPDATE and FINAL, which need PHASE = ACTIVE (60 R202). -/
def activeWords : List Word := [0x00000002, 0x00000012, 0x00000022, 0x00000032, 0x00000042, 0x00000003]

/-- A read at offset `off` of the window that is not legal for its register (60 R205). -/
def readIllegal (off size : Nat) : Prop := size ≠ 4 ∨ off % 4 ≠ 0 ∨ off = 0x00 ∨ off = 0x0C ∨ 0x20 ≤ off

/-- A write at offset `off` of the window that is not legal for its register (60 R205). -/
def writeIllegal (off size : Nat) : Prop := size ≠ 4 ∨ off % 4 ≠ 0 ∨ off = 0x0C ∨ 0x10 ≤ off

/-- The host action `a` in state `s` is an event that raises the error `e` (60 R202 to R205). -/
def raises (e : ErrorKind) (a : HostAction) (s : State) : Prop :=
  match e with
  | .access =>
    (∃ addr size off, a = .read addr size ∧ s.offset addr = some off ∧ readIllegal off size) ∨
      (∃ addr size v off, a = .write addr size v ∧ s.offset addr = some off ∧ writeIllegal off size)
  | .busy => ∃ addr v, a = .write addr 4 v ∧ s.offset addr = some 0 ∧ s.pending ≠ none
  | .cmd => ∃ addr v, a = .write addr 4 v ∧ s.offset addr = some 0 ∧ s.pending = none ∧ v ∉ commandWords.map (·.1)
  | .misuse =>
    ∃ addr v, a = .write addr 4 v ∧ s.offset addr = some 0 ∧ s.pending = none ∧ v ∈ activeWords ∧ s.phase ≠ .active

/-- The host action `a` in state `s` is an event that clears the error `e` (10 R30). -/
def clears (e : ErrorKind) (a : HostAction) (s : State) : Prop :=
  a = .reset ∨ ∃ addr v, a = .write addr 4 v ∧ s.offset addr = some 8 ∧ v.getLsbD e.code = true

/-- The bytes FINAL makes of a context: the unconsumed input, the pad, and the length field (41 R130 to R134). -/
def finalBytes (c : Ctx) : List Byte :=
  (List.range c.fill).map c.buf.get ++ ([0x80] ++ List.replicate ((if c.fill < 56 then 56 - c.fill else 120 - c.fill) - 1) 0x00)
    ++ (List.range 8).map (fun j => c.bitCount.extractLsb' (8 * j) 8)

/-- The next operation on the next state of an answer. -/
def andThen (r : Result) (f : State → Result) : Result :=
  match r with
  | .next s => f s
  | .fault e => .fault e
  | .refused e => .refused e

/-- A CMD write and then the engine's step. -/
def commandDone (w : Word) (s : State) : Result := andThen (cmdWrite w s) engineStep

/-- One chunk of a message: how many bytes, and the DIN value that holds them. -/
abbrev Chunk := Fin 5 × Word

/-- The bytes a chunk feeds (20 R65). -/
def chunkBytes (c : Chunk) : List Byte := lanes c.2 c.1.val

/-- The bytes a list of chunks feeds. -/
def chunksBytes (cs : List Chunk) : List Byte := cs.flatMap chunkBytes

/-- Write DIN, write the UPDATE word of the chunk, and let the engine perform it. -/
def feedChunk (c : Chunk) (s : State) : Result :=
  commandDone (BitVec.ofNat 32 (encode (.update (BitVec.ofNat 3 c.1.val)))) { s with din := c.2 }

/-- Feed chunks in order. -/
def feedChunks : List Chunk → State → Result
  | [], s => .next s
  | c :: cs, s => andThen (feedChunk c s) (feedChunks cs)

/-- INIT, the chunks, FINAL, each command performed before the next is written. -/
def hashChunks (cs : List Chunk) (s : State) : Result :=
  andThen (andThen (commandDone 0x00000001 s) (feedChunks cs)) (commandDone 0x00000003)

/-- The bytes of a message with its padding and length field (41 R138). -/
def paddedMessage (msg : List Byte) : List Byte :=
  msg ++ padBytes (msg.length % 64) ++ lengthBytes (BitVec.ofNat 64 (8 * msg.length))

/-- The digest of a message: Transform folded over the blocks of the padded message, from the IV (41 R138). -/
def digestOf (msg : List Byte) : Quad :=
  transformSpans ((paddedMessage msg).length / 64) Ctx.initial.state (paddedMessage msg)

end Sys2Proof.Machine
end

