-- ==== Sys2Proof/Certificates/Slice0/Obligations.lean ====
section
/-! DEFINITION. The statements for the provers. Each docstring names the rule of spec/ a statement formalises,
or, for a statement that rests on the model's own conventions, the log entry. -/

open Sys2Proof Sys2Proof.Machine

/-! ### Encoding -/

/-- 30_encoding.md sections 1 and 3: for every instruction the encoding admits, decoding its word gives it back. -/
def Obligations.DecodeOfEncodeIsTheInstruction : Prop :=
  ∀ i : Instr, i.wellFormed = true → decodeTableWord i.nbits (encode i) = some i

/-- 30_encoding.md section 1, the table of seven legal command words: a word decodes to an instruction exactly
where the table has the pair. -/
def Obligations.LegalCommandWordsAreTheSeven : Prop :=
  ∀ (w : Word) (i : Instr), decodeCmd w = .ok i ↔ (w, i) ∈ commandWords

/-- A few words written out from 30_encoding.md R80, R81, R86 and what they stand for. -/
def Obligations.WrittenOutWordsDecode : Prop :=
  decodeTableWord 32 0x00000001 = some .init ∧ decodeTableWord 32 0x00000032 = some (.update 3) ∧
    decodeTableWord 32 0x00000003 = some .final ∧ decodeTableWord 8 0x05 = some (.stepF 5) ∧
    decodeTableWord 8 0x1F = some (.stepG 15) ∧ decodeTableWord 8 0x20 = some (.stepH 0) ∧
    decodeTableWord 8 0x3A = some (.stepI 10) ∧ decodeTableWord 32 0x00000000 = none ∧
    decodeTableWord 32 0x00000052 = none ∧ decodeTableWord 32 0x00000082 = none

/-- 30 R83, 60 R204: a CMD write, while nothing is pending, of a word that is none of the seven sets ERR_CMD and
does nothing else; and those words are the four kinds R83 lists. -/
def Obligations.IllegalWordRaisesErrCmd : Prop :=
  ∀ (w : Word) (s : State),
    (s.pending = none → w ∉ commandWords.map (·.1) →
      busWrite 0x00 4 w s = .next { s with err := { s.err with cmd := true } }) ∧
    (w ∉ commandWords.map (·.1) ↔
      w.extractLsb' 0 4 = 0 ∨ 4 ≤ (w.extractLsb' 0 4).toNat ∨
        ((w.extractLsb' 0 4 = 1 ∨ w.extractLsb' 0 4 = 3) ∧ w.extractLsb' 4 28 ≠ 0) ∨
        (w.extractLsb' 0 4 = 2 ∧ 5 ≤ (w.extractLsb' 4 3).toNat) ∨
        (w.extractLsb' 0 4 = 2 ∧ w.extractLsb' 7 25 ≠ 0))

/-! ### The step and its instruction -/

/-- 20 R50, R51 and log entries 3 and 8: with a command pending and no transform under way, a step is `exec` of
the pending instruction whenever the engine moves: where the host has no access to make, or the next turn is the
engine's. Where the turns are used up and both can move, a free number of turns is dealt to the host and then one to
the engine, and the first of them is taken. -/
def Obligations.StepRunsThePendingCommand : Prop :=
  ∀ (s : State) (p : Pending), s.seq = none → s.pending = some p →
    (s.host = [] → step s = exec p.instr s) ∧
    (∀ ts, s.host ≠ [] → s.turns = .engine :: ts → step s = exec p.instr { s with turns := ts }) ∧
    (∀ ts, s.host ≠ [] → s.turns = .host :: ts → step s = hostStep { s with turns := ts }) ∧
    (s.host ≠ [] → s.turns = [] → Config.freeHostTurns s.draws = 0 →
      step s = exec p.instr { s with draws := s.draws + 1 }) ∧
    (∀ k, s.host ≠ [] → s.turns = [] → Config.freeHostTurns s.draws = k + 1 →
      step s = hostStep { s with turns := List.replicate k .host ++ [.engine], draws := s.draws + 1 })

/-- 20 R55, 60 R201 and log entry 8: on an idle instance a host write of a word to CMD runs the instruction the
word decodes to. -/
def Obligations.StepRunsTheWrittenCommand : Prop :=
  ∀ (s : State) (w : Word) (i : Instr) (rest : List HostAction), s.seq = none → s.pending = none →
    s.base % 64 = 0 → s.host = .write s.base 4 w :: rest → decodeCmd w = .ok i →
    step s = exec i { s with host := rest }

/-- 30 R86, 42 R153, R154 and log entry 7: while a transform is under way a step runs the step form its counter
names; the counter then goes up by 1, and after step 63 it stops and STATE takes the feed-forward. -/
def Obligations.StepRunsTheIssuedStep : Prop :=
  ∀ (s : State) (i : BitVec 6), s.seq = some i →
    ∃ t, exec (decodeStep i) s = .next t ∧
      (i.toNat < 63 → step s = .next { t with seq := some (i + 1) }) ∧
      (i.toNat = 63 → step s = .next
        { t with
          seq := none
          ctx :=
            { t.ctx with
              state :=
                { a := t.work.saved.a + t.work.cur.a, b := t.work.saved.b + t.work.cur.b
                  c := t.work.saved.c + t.work.cur.c, d := t.work.saved.d + t.work.cur.d } } })

/-- Log entry 9: a command word placed for the next step is run by the next step, as an accepted command where
PHASE lets it be accepted; a step index likewise. -/
def Obligations.PlacedWordRunsNext : Prop :=
  (∀ (s : State) (w : Word) (i : Instr), decodeCmd w = .ok i → (i = .init ∨ s.phase = .active) →
    ∃ p : Pending, p.instr = i ∧ p.snap = s.din ∧
      step (s.withFetchWord 32 w.toNat) = exec i { s with seq := none, pending := some p }) ∧
  (∀ (s : State) (i : BitVec 6),
    step (s.withFetchWord 8 i.toNat) = mapNext (State.advanceSeq i) (exec (decodeStep i) { s with seq := some i }))

/-- 60 R225 and log entry 10: every step answers a next state, but for a host access outside the window, which
is the one stop. -/
def Obligations.StepStopsOnlyOutsideTheWindow : Prop :=
  ∀ s : State,
    (∃ t, step s = .next t) ∨
      (step s = .fault .outsideWindow ∧ ∃ addr size rest, ¬ (s.base ≤ addr ∧ addr < s.base + 64) ∧
        (s.host = .read addr size :: rest ∨ ∃ v, s.host = .write addr size v :: rest))

/-- 20 R51 (fairness), in the model's own bound: a command that is pending stays pending until a step performs it,
or a reset of the host drops it, and one of these comes after at most as many steps as turns are listed and then dealt
to the host, unless the run stops outside the window first. The spec bounds no latency (70 R244); the bound is the
model's: the turns dealt to the host are a free but finite number (log entries 3 and 13). -/
def Obligations.PendingCommandIsPerformed : Prop :=
  ∀ (s : State) (p : Pending), s.seq = none → s.pending = some p →
    ∃ k, k ≤ s.turns.length + Config.freeHostTurns s.draws ∧
      (Host.Core.run core (k + 1) s = .fault .outsideWindow ∨
        ∃ u t, Host.Core.run core k s = .next u ∧ u.pending = some p ∧ step u = .next t ∧ t.pending = none ∧
          (step u = exec p.instr u.nextAgent.2 ∨
            ∃ rest, u.host = .reset :: rest ∧ step u = hostStep u.nextAgent.2))

/-- 70 R241 (hazard 1): after a command is accepted, the next CMD write finds BUSY = 1 or BUSY = 0; both are
steps of the model, by the turn. Found busy, it is dropped with ERR_BUSY; else the command is performed first
and the write then meets an idle instance. -/
def Obligations.NextCommandWriteMayFindBusyOrIdle : Prop :=
  ∀ (s : State) (p : Pending) (w : Word) (rest : List HostAction) (ts : List Agent),
    s.seq = none → s.pending = some p → s.host = .write s.base 4 w :: rest →
    (s.turns = .host :: ts →
      step s = .next { s with turns := ts, host := rest, err := { s.err with busy := true } }) ∧
    (s.turns = .engine :: ts →
      ∃ t, step s = .next t ∧ t.pending = none ∧ t.host = s.host ∧ t.err = s.err ∧
        step t = cmdWrite w { t with host := rest })

/-- 30 R88: one pass of WAIT reads STATUS, and the loop goes on exactly where bit 0 of the value is 1, which is where
a command is pending; an engine's turn between two passes performs the command. -/
def Obligations.WaitEndsWhenNotBusy : Prop :=
  ∀ (s : State) (rest : List HostAction), s.seq = none → s.host = .wait :: rest →
    ∃ v, busRead 0x08 4 s = (v, s) ∧ (v.getLsbD 0 = true ↔ s.pending ≠ none) ∧
      (∀ p ts, s.pending = some p → s.turns = .host :: ts →
        step s = .next { s with turns := ts, reads := s.reads ++ [v] }) ∧
      (∀ p ts, s.pending = some p → s.turns = .engine :: ts → step s = exec p.instr { s with turns := ts }) ∧
      (s.pending = none → step s = .next { s with host := rest, reads := s.reads ++ [v] })

/-! ### Reset and the invariant -/

/-- 10 R43, 70 R230, R231: the reset event, in any state, sets every element to its reset value, a pending
command among them; STATUS, every DIGESTk and DIN then read 0. -/
def Obligations.ResetSetsEveryElement : Prop :=
  ∀ (s : State), ∃ t, hostAct .reset s = .next t ∧
    t.ctx.state = { a := 0, b := 0, c := 0, d := 0 } ∧ t.ctx.bitCount = 0 ∧ (∀ j, j < 64 → t.ctx.buf.get j = 0) ∧
    t.phase = .uninit ∧ t.pending = none ∧ t.digest = { a := 0, b := 0, c := 0, d := 0 } ∧ t.dvalid = false ∧
    t.err = { misuse := false, busy := false, cmd := false, access := false } ∧ t.din = 0 ∧
    (busRead 0x08 4 t).1 = 0 ∧ (busRead 0x04 4 t).1 = 0 ∧
    (busRead 0x10 4 t).1 = 0 ∧ (busRead 0x14 4 t).1 = 0 ∧ (busRead 0x18 4 t).1 = 0 ∧ (busRead 0x1C 4 t).1 = 0

/-- The invariant holds after reset, wherever the window is (log entry 1: BASE is a parameter). -/
def Obligations.ResetMeetsTheInvariant : Prop :=
  State.reset.Inv ∧ ∀ b : Nat, b % 64 = 0 → (State.resetAt b).Inv

/-- Every step keeps the invariant: the lifecycle of 10 R27, the wiped context outside ACTIVE (R43, 41 R137),
DVALID only in DONE (R29), whole bytes counted (R24), a pending UPDATE or FINAL only in ACTIVE (60 R201). -/
def Obligations.StepKeepsTheInvariant : Prop :=
  ∀ s t : State, s.Inv → step s = .next t → t.Inv

/-! ### The bus -/

/-- 20 R52: an access in the window reaches the register at its offset, and a read's value is returned. -/
def Obligations.AccessReachesItsOffset : Prop :=
  ∀ (s : State) (off size : Nat) (v : Word), off < 64 →
    hostAct (.read (s.base + off) size) s =
      .next { (busRead off size s).2 with reads := (busRead off size s).2.reads ++ [(busRead off size s).1] } ∧
    hostAct (.write (s.base + off) size v) s = busWrite off size v s

/-- 20 R56, R60: reads of DIN and DIGESTk return the register and change nothing; DIGESTk reads 0 until a FINAL
has been performed; a write of DIGESTk only raises ERR_ACCESS. -/
def Obligations.DinAndDigestAccess : Prop :=
  ∀ (s : State) (v : Word),
    busRead 0x04 4 s = (s.din, s) ∧
    busRead 0x10 4 s = (s.digest.a, s) ∧ busRead 0x14 4 s = (s.digest.b, s) ∧
    busRead 0x18 4 s = (s.digest.c, s) ∧ busRead 0x1C 4 s = (s.digest.d, s) ∧
    (∀ k : Fin 4, busWrite (0x10 + 4 * k.val) 4 v s = .next { s with err := { s.err with access := true } }) ∧
    (s.Inv → s.dvalid = false → ∀ k : Fin 4, busRead (0x10 + 4 * k.val) 4 s = (0, s))

/-- 20 R57: a write of DIN stores the value, also while BUSY = 1, and a pending command does what it would have
done without it. -/
def Obligations.DinWriteLeavesThePendingCommand : Prop :=
  ∀ (s : State) (v : Word),
    busWrite 0x04 4 v s = .next { s with din := v } ∧
    ∀ p, s.pending = some p → ∃ t, exec p.instr s = .next t ∧ exec p.instr { s with din := v } = .next { t with din := v }

/-- 20 R58: what a STATUS read returns, field by field, with no side effect. -/
def Obligations.StatusReadLayout : Prop :=
  ∀ s : State, ∃ w : Word, busRead 0x08 4 s = (w, s) ∧
    w.getLsbD 0 = s.pending.isSome ∧ w.getLsbD 1 = s.dvalid ∧
    w.extractLsb' 2 2 = (match s.phase with | .uninit => 0 | .active => 1 | .done => 2) ∧
    (w.extractLsb' 4 6).toNat = (s.ctx.bitCount.toNat / 8) % 64 ∧ w.extractLsb' 10 6 = 0 ∧
    w.getLsbD 16 = s.err.misuse ∧ w.getLsbD 17 = s.err.busy ∧ w.getLsbD 18 = s.err.cmd ∧
    w.getLsbD 19 = s.err.access ∧ w.extractLsb' 20 12 = 0

/-- 20 R59: a STATUS write clears the error bits written as 1 and changes nothing else. -/
def Obligations.StatusWriteClearsErrors : Prop :=
  ∀ (s : State) (v : Word), busWrite 0x08 4 v s = .next
    { s with
      err :=
        { misuse := if v.getLsbD 16 then false else s.err.misuse
          busy := if v.getLsbD 17 then false else s.err.busy
          cmd := if v.getLsbD 18 then false else s.err.cmd
          access := if v.getLsbD 19 then false else s.err.access } }

/-- 60 R205: any access in the window that is not legal for its register raises ERR_ACCESS and does nothing else,
a read returning 0; a legal access never raises it. It is STATUS bit 19. -/
def Obligations.IllegalAccessRaisesErrAccess : Prop :=
  ∀ (s : State) (off size : Nat) (v : Word), off < 64 →
    (readIllegal off size → busRead off size s = (0, { s with err := { s.err with access := true } })) ∧
    (writeIllegal off size → busWrite off size v s = .next { s with err := { s.err with access := true } }) ∧
    (¬ readIllegal off size → (busRead off size s).2 = s) ∧
    (¬ writeIllegal off size → ∃ t, busWrite off size v s = .next t ∧ (t.err.access = true → s.err.access = true)) ∧
    (busRead 0x08 4 s).1.getLsbD 19 = s.err.access

/-- 10 R42: the context is not readable. Replacing STATE, bitCount and BUF by any others with the same fill, and
the working state and the pending data too, changes no value any read returns. -/
def Obligations.ContextIsHiddenFromReads : Prop :=
  ∀ (s : State) (c : Ctx) (w : Work) (off size : Nat), c.fill = s.ctx.fill →
    (busRead off size { s with ctx := c, work := w }).1 = (busRead off size s).1 ∧
      ∀ p q, s.pending = some p →
        (busRead off size { s with ctx := c, work := w, pending := some q }).1 = (busRead off size s).1

/-! ### Acceptance and errors -/

/-- 60 R201, R202, R203: a CMD write checks BUSY, then the encoding, then PHASE; the first check that fails sets its
error bit and nothing else. Else the command is accepted with the DIN of this step as its snapshot, which later DIN
writes do not change. The three error bits are STATUS bits 16 to 18. -/
def Obligations.CommandWriteChecksAndAccepts : Prop :=
  ∀ (s : State) (w : Word),
    (s.pending ≠ none → busWrite 0x00 4 w s = .next { s with err := { s.err with busy := true } }) ∧
    (s.pending = none → w ∉ commandWords.map (·.1) →
      busWrite 0x00 4 w s = .next { s with err := { s.err with cmd := true } }) ∧
    (s.pending = none → w ∈ activeWords → s.phase ≠ .active →
      busWrite 0x00 4 w s = .next { s with err := { s.err with misuse := true } }) ∧
    (∀ i, s.pending = none → (w, i) ∈ commandWords → (w ∈ activeWords → s.phase = .active) →
      ∃ p : Pending, p.instr = i ∧ p.n.val = (w.extractLsb' 4 3).toNat ∧ p.snap = s.din ∧
        busWrite 0x00 4 w s = .next { s with pending := some p } ∧
        ∀ v, busWrite 0x04 4 v { s with pending := some p } = .next { s with pending := some p, din := v }) ∧
    (busRead 0x08 4 s).1.getLsbD 16 = s.err.misuse ∧ (busRead 0x08 4 s).1.getLsbD 17 = s.err.busy ∧
    (busRead 0x08 4 s).1.getLsbD 18 = s.err.cmd

/-- 60 R209: a host access raises at most one error; for a CMD write the first check that fails decides it; an
illegal access is ERR_ACCESS alone; the engine step raises none. -/
def Obligations.AtMostOneErrorPerAccess : Prop :=
  (∀ (s t : State) (a : HostAction), hostAct a s = .next t →
    ∃ e, ∀ e', e' ≠ e → t.err.get e' = true → s.err.get e' = true) ∧
  (∀ (s : State) (w : Word), s.pending ≠ none → cmdWrite w s = .next { s with err := { s.err with busy := true } }) ∧
  (∀ (s : State) (w : Word), s.pending = none → w ∉ commandWords.map (·.1) →
    cmdWrite w s = .next { s with err := { s.err with cmd := true } }) ∧
  (∀ (s : State) (w : Word), s.pending = none → w ∈ activeWords → s.phase ≠ .active →
    cmdWrite w s = .next { s with err := { s.err with misuse := true } }) ∧
  (∀ (s : State) (off size : Nat) (v : Word), off < 64 → writeIllegal off size →
    busWrite off size v s = .next { s with err := { s.err with access := true } }) ∧
  (∀ (s : State) (p : Pending), s.pending = some p → ∃ t, exec p.instr s = .next t ∧ t.err = s.err)

/-- 10 R30: an error flag is set only by an event of 60 R202 to R205 and cleared only by a write of its 1 to STATUS
or by reset. -/
def Obligations.ErrorFlagsAreSticky : Prop :=
  ∀ (s t : State) (e : ErrorKind), step s = .next t →
    (s.err.get e = false → t.err.get e = true → ∃ a rest, s.host = a :: rest ∧ raises e a s) ∧
    (s.err.get e = true → t.err.get e = false → ∃ a rest, s.host = a :: rest ∧ clears e a s)

/-! ### The commands -/

/-- 40 R110: INIT is the word 1 and is accepted in every PHASE; performed, it answers the state with the IV, a zero counter and
buffer, DIGEST and DVALID cleared, PHASE ACTIVE and nothing pending, and all else as it was. -/
def Obligations.InitCreatesAFreshContext : Prop :=
  decodeCmd 0x00000001 = .ok .init ∧
  (∀ s : State, s.pending = none →
    exec .init s = .next { s with pending := some { op := .init, n := 0, snap := s.din } }) ∧
  (∀ (s : State) (p : Pending), s.pending = some p →
    exec .init s = .next
      { s with
        ctx :=
          { state := { a := 0x67452301, b := 0xefcdab89, c := 0x98badcfe, d := 0x10325476 }
            bitCount := 0
            buf := Vector.replicate 64 0 }
        digest := { a := 0, b := 0, c := 0, d := 0 }
        dvalid := false
        phase := .active
        pending := none })

/-- 40 R111: UPDATE n is the word 16n + 2 and is accepted only in ACTIVE; performed, it appends `n` bytes of the snapshot, lane 0 first.
With no completed block only those bytes of BUF and the counter change; with one, STATE takes one transform of
the completed block and the bytes left over go to the bottom of BUF. Nothing else changes, but for the working
state, which is free after a transform (log entry 5). -/
def Obligations.UpdateAppendsTheDinBytes : Prop :=
  ∀ (s : State) (n : BitVec 3), n.toNat ≤ 4 →
    decodeCmd (BitVec.ofNat 32 (16 * n.toNat + 2)) = .ok (.update n) ∧
    (s.pending = none → s.phase ≠ .active →
      exec (.update n) s = .next { s with err := { s.err with misuse := true } }) ∧
    (s.pending = none → s.phase = .active → ∃ q : Pending, q.op = .update ∧ q.n.val = n.toNat ∧ q.snap = s.din ∧
      exec (.update n) s = .next { s with pending := some q }) ∧
    (∀ p, s.pending = some p → ∃ (c : Ctx) (w : Work) (d : Nat),
      exec (.update n) s = .next { s with ctx := c, work := w, draws := d, pending := none } ∧
      c.bitCount = s.ctx.bitCount + BitVec.ofNat 64 (8 * n.toNat) ∧
      c.fill = (s.ctx.fill + n.toNat) % 64 ∧
      (s.ctx.fill + n.toNat < 64 →
        c.state = s.ctx.state ∧ w = s.work ∧ d = s.draws ∧
        ∀ j, j < 64 → c.buf.get j =
          if s.ctx.fill ≤ j ∧ j < s.ctx.fill + n.toNat then p.snap.extractLsb' (8 * (j - s.ctx.fill)) 8
          else s.ctx.buf.get j) ∧
      (64 ≤ s.ctx.fill + n.toNat → ∃ blk : Block,
        (∀ j, j < 64 → blk.get j =
          if j < s.ctx.fill then s.ctx.buf.get j else p.snap.extractLsb' (8 * (j - s.ctx.fill)) 8) ∧
        c.state = transform s.ctx.state blk ∧
        ∀ j, j < 64 → c.buf.get j =
          if j < s.ctx.fill + n.toNat - 64 then p.snap.extractLsb' (8 * (j + 64 - s.ctx.fill)) 8 else blk.get j))

/-- 40_context_ops.md, UPDATE 0: performing it changes only PENDING. -/
def Obligations.UpdateZeroChangesOnlyPending : Prop :=
  ∀ (s : State) (p : Pending), s.pending = some p → exec (.update 0) s = .next { s with pending := none }

/-- 40 R113: the counter after `L` more bytes is the two-word sum with the carry from the low word, which is the
64-bit sum; for `L ≤ 64` the high half of the increment is 0. -/
def Obligations.CounterIsTheTwoWordSum : Prop :=
  ∀ (c : Ctx) (data : List Byte), ∃ inc : BitVec 64, inc = BitVec.ofNat 64 data.length <<< 3 ∧
    (absorb c data).bitCountLo = c.bitCountLo + inc.extractLsb' 0 32 ∧
    (absorb c data).bitCountHi.toNat =
      (c.bitCountHi.toNat + (inc.extractLsb' 32 32).toNat +
        (c.bitCountLo.toNat + (inc.extractLsb' 0 32).toNat) / 2 ^ 32) % 2 ^ 32 ∧
    (absorb c data).bitCount.toNat = (c.bitCount.toNat + 8 * data.length) % 2 ^ 64 ∧
    (data.length ≤ 64 → inc.extractLsb' 32 32 = 0)

/-- 41 R131: the pad count, its range, and that fill and pad end at 56 modulo 64. -/
def Obligations.PadCountReachesFiftySix : Prop :=
  ∀ fill : Nat, fill < 64 →
    padCount fill = (if fill < 56 then 56 - fill else 120 - fill) ∧ 1 ≤ padCount fill ∧ padCount fill ≤ 64 ∧
      (fill + padCount fill) % 64 = 56

/-- 41 R130, R137: FINAL is the word 3 and is accepted only in ACTIVE; performed, DIGEST takes STATE after the transforms of
the one or two blocks made of the unconsumed input, the pad and the length before padding; the context and the
working state are wiped; DVALID is 1, PHASE is DONE, nothing is pending, and all else is as it was. -/
def Obligations.FinalPadsExtractsAndWipes : Prop :=
  ∀ s : State,
    decodeCmd 0x00000003 = .ok .final ∧
    (s.pending = none → s.phase ≠ .active →
      exec .final s = .next { s with err := { s.err with misuse := true } }) ∧
    (s.pending = none → s.phase = .active →
      exec .final s = .next { s with pending := some { op := .final, n := 0, snap := s.din } }) ∧
    (∀ p, s.pending = some p →
      exec .final s = .next
        { s with
          ctx := { state := { a := 0, b := 0, c := 0, d := 0 }, bitCount := 0, buf := Vector.replicate 64 0 }
          work :=
            { cur := { a := 0, b := 0, c := 0, d := 0 }, saved := { a := 0, b := 0, c := 0, d := 0 }
              m := Vector.replicate 16 0 }
          seq := none
          digest := transformSpans (if s.ctx.fill < 56 then 1 else 2) s.ctx.state (finalBytes s.ctx)
          dvalid := true
          phase := .done
          pending := none }) ∧
    (finalBytes s.ctx).length = 64 * (if s.ctx.fill < 56 then 1 else 2)

/-- 10_state.md, DIGEST, and 92 D18: DIGEST and DVALID change only when the engine performs an INIT, which clears
them, or a FINAL, which sets them to the digest and 1, or at a reset of the host, which clears them. -/
def Obligations.DigestIsKeptUntilInitFinalOrReset : Prop :=
  ∀ s t : State, step s = .next t →
    (t.digest = s.digest ∧ t.dvalid = s.dvalid) ∨
      (∃ p, s.pending = some p ∧ p.op = .init ∧ t.pending = none ∧
        t.digest = { a := 0, b := 0, c := 0, d := 0 } ∧ t.dvalid = false) ∨
      (∃ p, s.pending = some p ∧ p.op = .final ∧ t.pending = none ∧
        t.digest = transformSpans (if s.ctx.fill < 56 then 1 else 2) s.ctx.state (finalBytes s.ctx) ∧
        t.dvalid = true) ∨
      (∃ rest, s.host = .reset :: rest ∧ t.host = rest ∧ t.digest = { a := 0, b := 0, c := 0, d := 0 } ∧
        t.dvalid = false)

/-- 10_state.md, the invariant on the state (R25): in ACTIVE, a step leaves STATE alone, and then it performs
nothing but at most an UPDATE that completes no block; or it performs an UPDATE that completes the block, and STATE
takes one transform of BUF filled up with the first bytes of the data; or it is a lifecycle boundary: the IV of INIT,
the wipe of FINAL, or a reset of the host. -/
def Obligations.StateChangesOnlyByATransform : Prop :=
  ∀ s t : State, s.seq = none → s.phase = .active → step s = .next t →
    (t.ctx.state = s.ctx.state ∧ ∀ p, s.pending = some p →
      t.pending = some p ∨ (p.op = .update ∧ s.ctx.fill + p.n.val < 64)) ∨
    (∃ p, s.pending = some p ∧ p.op = .update ∧ 64 ≤ s.ctx.fill + p.n.val ∧ t.pending = none ∧
      t.ctx.state = transform s.ctx.state
        (bufWriteRun s.ctx.buf s.ctx.fill ((lanes p.snap p.n.val).take (64 - s.ctx.fill)))) ∨
    (∃ p, s.pending = some p ∧ p.op = .init ∧ t.pending = none ∧
      t.ctx.state = { a := 0x67452301, b := 0xefcdab89, c := 0x98badcfe, d := 0x10325476 }) ∨
    (∃ p, s.pending = some p ∧ p.op = .final ∧ t.pending = none ∧
      t.ctx.state = { a := 0, b := 0, c := 0, d := 0 }) ∨
    (∃ rest, s.host = .reset :: rest ∧ t.host = rest ∧ t.ctx.state = { a := 0, b := 0, c := 0, d := 0 })

/-- 40_context_ops.md, streaming equivalence: two chunkings of the same bytes, 0-length chunks among them, leave
the same STATE, counter and unconsumed input, and FINAL then gives the same digest. -/
def Obligations.StreamingEquivalence : Prop :=
  ∀ (s : State) (cs cs' : List Chunk), s.pending = none → s.phase = .active → chunksBytes cs = chunksBytes cs' →
    ∃ t t' u u', feedChunks cs s = .next t ∧ feedChunks cs' s = .next t' ∧
      t.ctx.state = t'.ctx.state ∧ t.ctx.bitCount = t'.ctx.bitCount ∧
      (∀ j, j < t.ctx.fill → t.ctx.buf.get j = t'.ctx.buf.get j) ∧
      commandDone 0x00000003 t = .next u ∧ commandDone 0x00000003 t' = .next u' ∧ u.digest = u'.digest

/-- 40_context_ops.md, the context after UPDATEs that fed the bytes `msg` since INIT. -/
def Obligations.ContextAfterFeeding : Prop :=
  ∀ (s : State) (cs : List Chunk) (msg : List Byte), s.pending = none → chunksBytes cs = msg →
    ∃ t u, commandDone 0x00000001 s = .next t ∧ feedChunks cs t = .next u ∧ u.phase = .active ∧ u.pending = none ∧
      u.ctx.bitCount = BitVec.ofNat 64 (8 * msg.length) ∧ u.ctx.fill = msg.length % 64 ∧
      u.ctx.state =
        transformSpans (msg.length / 64) { a := 0x67452301, b := 0xefcdab89, c := 0x98badcfe, d := 0x10325476 } msg ∧
      ∀ j, j < u.ctx.fill → u.ctx.buf.get j = msg.getD (msg.length - u.ctx.fill + j) 0

/-- 41_finalization.md, the digest as a function of the message: INIT, the chunks of any chunking and FINAL leave
DIGEST at Transform folded over the blocks of the padded message, with the context wiped and no error raised. -/
def Obligations.DigestOfAnyChunking : Prop :=
  ∀ (s : State) (cs : List Chunk), s.pending = none →
    ∃ t, hashChunks cs s = .next t ∧ t.digest = digestOf (chunksBytes cs) ∧ t.dvalid = true ∧ t.phase = .done ∧
      t.pending = none ∧ t.ctx = Ctx.zero ∧ t.err = s.err

/-! ### The round processor and the transform -/

/-- 43 R170 to R173, R175, R178: the group bits of the index select the form, and each form answers the state with the new working words, computed from the old
ones, the block word and the round constant its index selects, and all else as it was. -/
def Obligations.StepFormsComputeTheRound : Prop :=
  ∀ (s : State) (j : BitVec 4),
    decodeStep (BitVec.ofNat 6 j.toNat) = .stepF j ∧ decodeStep (BitVec.ofNat 6 (16 + j.toNat)) = .stepG j ∧
    decodeStep (BitVec.ofNat 6 (32 + j.toNat)) = .stepH j ∧ decodeStep (BitVec.ofNat 6 (48 + j.toNat)) = .stepI j ∧
    ∃ out : Word → BitVec 6 → Quad,
    (∀ f i, out f i =
      { a := s.work.cur.d
        b := s.work.cur.b +
          (s.work.cur.a + f + s.work.m[wordIndex i] + roundConst i).rotateLeft (shiftAmount i)
        c := s.work.cur.b
        d := s.work.cur.c }) ∧
    exec (.stepF j) s = .next
      { s with work := { s.work with
        cur := out ((s.work.cur.b &&& s.work.cur.c) ||| (~~~s.work.cur.b &&& s.work.cur.d)) (BitVec.ofNat 6 j.toNat) } } ∧
    exec (.stepG j) s = .next
      { s with work := { s.work with
        cur := out ((s.work.cur.b &&& s.work.cur.d) ||| (s.work.cur.c &&& ~~~s.work.cur.d)) (BitVec.ofNat 6 (16 + j.toNat)) } } ∧
    exec (.stepH j) s = .next
      { s with work := { s.work with
        cur := out (s.work.cur.b ^^^ s.work.cur.c ^^^ s.work.cur.d) (BitVec.ofNat 6 (32 + j.toNat)) } } ∧
    exec (.stepI j) s = .next
      { s with work := { s.work with
        cur := out (s.work.cur.c ^^^ (s.work.cur.b ||| ~~~s.work.cur.d)) (BitVec.ofNat 6 (48 + j.toNat)) } }

/-- 43 R174: at every shift the table holds, `rotl32` is the rotation, and the shifts are the sixteen listed. -/
def Obligations.RotationByTheTableShifts : Prop :=
  ∀ (i : BitVec 6) (x : Word),
    shiftAmount i ∈ [4, 5, 6, 7, 9, 10, 11, 12, 14, 15, 16, 17, 20, 21, 22, 23] ∧
      rotl32 x (shiftAmount i) = (x <<< shiftAmount i) ||| (x >>> (32 - shiftAmount i)) ∧
      rotl32 x (shiftAmount i) = x.rotateLeft (shiftAmount i)

/-- 43 R170 to R173: the mixing functions, their corner cases and their examples. -/
def Obligations.MixingFunctions : Prop :=
  ∀ x y z : Word,
    (mixF x y z = (x &&& y) ||| (~~~x &&& z) ∧ mixG x y z = (x &&& z) ||| (y &&& ~~~z) ∧
      mixH x y z = x ^^^ y ^^^ z ∧ mixI x y z = y ^^^ (x ||| ~~~z)) ∧
    (mixF 0 0 0 = 0 ∧ mixF 0xFFFFFFFF y z = y ∧ mixF 0 y z = z ∧ mixG x y 0xFFFFFFFF = x ∧ mixG x y 0 = y ∧
      mixH x x z = z ∧ mixH 0 0 0 = 0 ∧ mixI 0 0 0 = 0xFFFFFFFF ∧ mixI 0xFFFFFFFF y z = ~~~y) ∧
    (mixF 0xefcdab89 0x98badcfe 0x10325476 = 0x98badcfe ∧ mixG 0xefcdab89 0x98badcfe 0x10325476 = 0x88888888 ∧
      mixH 0xefcdab89 0x98badcfe 0x10325476 = 0x67452301 ∧ mixI 0xefcdab89 0x98badcfe 0x10325476 = 0x77777777)

/-- 43_round_processor.md, the closed forms of the word index and the shift, and that each group uses each of the 16
words exactly once. The columns are the spec's general knowledge (93 G2, G3; log entry 15). -/
def Obligations.RoundTableClosedForms : Prop :=
  (∀ j : BitVec 4,
    (wordIndex (stepIndex 0 j)).val = j.toNat ∧ (wordIndex (stepIndex 1 j)).val = (5 * (16 + j.toNat) + 1) % 16 ∧
    (wordIndex (stepIndex 2 j)).val = (3 * (32 + j.toNat) + 5) % 16 ∧
    (wordIndex (stepIndex 3 j)).val = (7 * (48 + j.toNat)) % 16 ∧
    shiftAmount (stepIndex 0 j) = [7, 12, 17, 22].getD (j.toNat % 4) 0 ∧
    shiftAmount (stepIndex 1 j) = [5, 9, 14, 20].getD (j.toNat % 4) 0 ∧
    shiftAmount (stepIndex 2 j) = [4, 11, 16, 23].getD (j.toNat % 4) 0 ∧
    shiftAmount (stepIndex 3 j) = [6, 10, 15, 21].getD (j.toNat % 4) 0) ∧
  (∀ (g : BitVec 2) (k : Fin 16), ∃ j : BitVec 4, wordIndex (stepIndex g j) = k ∧
    ∀ j', wordIndex (stepIndex g j') = k → j' = j)

/-- 20 R62, R63: block decode and the length field are little-endian. So are the bytes of each digest word. -/
def Obligations.InternalDataIsLittleEndian : Prop :=
  (∀ (blk : Block) (j : Fin 16), (decodeBlock blk)[j].toNat =
    (blk.get (4 * j.val)).toNat + (blk.get (4 * j.val + 1)).toNat * 2 ^ 8 +
      (blk.get (4 * j.val + 2)).toNat * 2 ^ 16 + (blk.get (4 * j.val + 3)).toNat * 2 ^ 24) ∧
  (∀ (bits : BitVec 64) (j : Nat), j < 8 →
    (lengthBytes bits).length = 8 ∧ (lengthBytes bits)[j]? = some (bits.extractLsb' (8 * j) 8)) ∧
  (∀ (q : Quad) (k j : Fin 4),
    q.digestByte ⟨4 * k.val + j.val, by omega⟩ = (q.word k).extractLsb' (8 * j.val) 8)

/-- 42_block_transform.md and log entry 7: 64 steps of the machine from a loaded transform are one Transform: STATE
is what the function gives, and nothing else has changed but the working words and the counter. -/
def Obligations.SixtyFourStepsAreOneTransform : Prop :=
  ∀ (s : State) (blk : Block), s.seq = some 0 → s.work.cur = s.ctx.state → s.work.saved = s.ctx.state →
    s.work.m = decodeBlock blk →
    ∃ q : Quad, Host.Core.run core 64 s = .next
      { s with
        seq := none
        ctx := { s.ctx with state := transform s.ctx.state blk }
        work := { s.work with cur := q } }

/-! ### Several instances -/

/-- 60_exceptions.md, multiple instances, and log entry 14: a step of one instance leaves every other as it was,
depends on no other, and keeps the windows apart. -/
def Obligations.InstancesAreIndependent : Prop :=
  ∀ (sys sys' : System) (k : Nat), sys.stepAt k = .next sys' →
    (∀ j, j ≠ k → sys'.insts[j]? = sys.insts[j]?) ∧
    (∀ s, sys.insts[k]? = some s → ∃ t, step s = .next t ∧ sys'.insts[k]? = some t) ∧
    (sys.wf → sys'.wf)

/-- 00_scope.md and 60_exceptions.md: with BASE a multiple of 0x40 for each and no two the same, an address is in
the window of at most one instance. -/
def Obligations.WindowsDoNotOverlap : Prop :=
  ∀ (sys : System) (j k : Nat) (s t : State) (addr x y : Nat), sys.wf → sys.insts[j]? = some s →
    sys.insts[k]? = some t → s.offset addr = some x → t.offset addr = some y → j = k

/-! ### The round constants -/

/-- 43_round_processor.md, the round constants: `K(i)` is the source's own formula, `floor(abs(sin(i+1)) × 2^32)`. -/
def Obligations.RoundConstantsAreTheSineFormula : Prop :=
  ∀ i : BitVec 6, ((roundConst i).toNat : ℤ) = ⌊|Real.sin ((i.toNat : ℝ) + 1)| * 2 ^ 32⌋

/-- 42 R150 (its example) and R157: the transform of the padded "abc" block from the IV, of the all-zero block from
the all-zero state, and of the all-zero block from the IV. These values fix the round table's columns, the constants
among them. -/
def Obligations.TransformWorkedValues : Prop :=
  let iv : Quad := { a := 0x67452301, b := 0xefcdab89, c := 0x98badcfe, d := 0x10325476 }
  let abc : Block := Block.ofList ([0x61, 0x62, 0x63, 0x80] ++ List.replicate 52 0x00 ++ [0x18] ++ List.replicate 7 0x00)
  transform iv abc = { a := 0x98500190, b := 0xb04fd23c, c := 0x7d3f96d6, d := 0x727fe128 } ∧
    transform { a := 0, b := 0, c := 0, d := 0 } (Vector.replicate 64 0) =
      { a := 0xf7cd1c97, b := 0xa5483681, c := 0x2b68d832, d := 0xf90ca639 } ∧
    transform iv (Vector.replicate 64 0) = { a := 0x031f1dac, b := 0x6ea58ed0, c := 0x1fab67b7, d := 0x74317791 }

/-! ### The polling loop -/

/-- 30 R88, with 20 R51 and log entries 3 and 4: from a WAIT at the head of the host's list, the run comes to the end
of the loop. Every value read but the last has BUSY = 1 and the last has BUSY = 0; nothing is pending then, and the
host goes on with what follows. Each step but the engine's one, where a command was pending, is one read; the bound on
the steps is the model's own. -/
def Obligations.WaitLoopEndsInTheFirstNotBusyRead : Prop :=
  ∀ (s : State) (rest : List HostAction), s.seq = none → s.host = .wait :: rest →
    ∃ (k : Nat) (t : State) (polls : List Word) (v : Word),
      k ≤ s.turns.length + Config.freeHostTurns s.draws + 2 ∧ Host.Core.run core k s = .next t ∧
      t.host = rest ∧ t.pending = none ∧ t.reads = s.reads ++ polls ++ [v] ∧
      (∀ w ∈ polls, w.getLsbD 0 = true) ∧ v.getLsbD 0 = false ∧
      (s.pending = none → polls = [] ∧ k = 1) ∧ (s.pending ≠ none → k = polls.length + 2)
end

