-- ==== Sys2Proof/Laws/Buffer.lean ====
section
/-! SUPPORT. The buffer: one lemma that says what a run of byte writes leaves, and blocks as lists. -/

namespace Sys2Proof.Machine

theorem Block.get_eq_getElem (blk : Block) (i : Nat) (h : i < 64) : blk.get i = blk[i] := by
  simp [Block.get, Vector.getD, h]

/-- A byte of the buffer after a run of writes: the byte written there, or the old one. -/
theorem bufWriteRun_get (bytes : List Byte) (buf : Block) (idx j : Nat) (hj : j < 64) :
    (bufWriteRun buf idx bytes).get j =
      if idx ≤ j ∧ j < idx + bytes.length then bytes.getD (j - idx) 0 else buf.get j := by
  induction bytes generalizing buf idx with
  | nil => rw [bufWriteRun, if_neg (by simp only [List.length_nil]; omega)]
  | cons b bs ih =>
    rw [bufWriteRun, ih, Block.get_eq_getElem _ _ hj, Block.get_eq_getElem _ _ hj, Vector.getElem_setIfInBounds hj]
    rcases Nat.lt_trichotomy j idx with h | h | h
    · rw [if_neg (by omega), if_neg (by omega), if_neg (by omega)]
    · subst h
      rw [if_neg (by omega), if_pos rfl, if_pos (by simp)]
      simp
    · have hd : j - idx = (j - (idx + 1)) + 1 := by omega
      simp only [List.length_cons, hd, List.getD_cons_succ]
      by_cases hl : j < idx + 1 + bs.length
      · rw [if_pos (by omega), if_pos (by omega)]
      · rw [if_neg (by omega), if_neg (by omega), if_neg (by omega)]

/-- Two blocks with the same bytes are equal. -/
theorem Block.ext_get (a b : Block) (h : ∀ j, j < 64 → a.get j = b.get j) : a = b := by
  apply Vector.ext
  intro i hi
  rw [← Block.get_eq_getElem _ _ hi, ← Block.get_eq_getElem _ _ hi, h i hi]

@[simp] theorem Block.zero_get (j : Nat) : Block.zero.get j = 0 := by
  by_cases h : j < 64
  · rw [Block.get_eq_getElem _ _ h]; simp [Block.zero]
  · simp [Block.get, Vector.getD, h]

theorem Block.ofList_get (bytes : List Byte) (j : Nat) (h : j < 64) :
    (Block.ofList bytes).get j = bytes.getD j 0 := by
  rw [Block.get_eq_getElem _ _ h]; simp [Block.ofList]

/-- A block reads only the first 64 bytes of a list. -/
theorem Block.ofList_append (a b : List Byte) (h : 64 ≤ a.length) : Block.ofList (a ++ b) = Block.ofList a := by
  apply Block.ext_get
  intro j hj
  rw [Block.ofList_get _ _ hj, Block.ofList_get _ _ hj]
  rw [List.getD_append _ _ _ _ (by omega)]

end Sys2Proof.Machine
end

