-- ==== Sys2Proof/Laws/Absorb.lean ====
section
/-! SUPPORT. Absorb (40_context_ops.md R112): one lemma that says all it does, in terms of the unconsumed
input; and the laws of transforming a sequence span by span. -/

namespace Sys2Proof.Machine

theorem Ctx.fill_lt (c : Ctx) : c.fill < 64 := Nat.mod_lt _ (by decide)

@[simp] theorem Ctx.tail_length (c : Ctx) : c.tail.length = c.fill := by simp [Ctx.tail]

theorem Ctx.tail_getD (c : Ctx) (j : Nat) (h : j < c.fill) : c.tail.getD j 0 = c.buf.get j := by
  simp [Ctx.tail, List.getD_eq_getElem?_getD, h]

@[simp] theorem Ctx.fill_initial : Ctx.initial.fill = 0 := rfl
@[simp] theorem Ctx.fill_zero : Ctx.zero.fill = 0 := rfl
@[simp] theorem Ctx.tail_initial : Ctx.initial.tail = [] := rfl

@[simp] theorem lanes_length (v : Word) (n : Nat) : (lanes v n).length = n := by simp [lanes]
@[simp] theorem lengthBytes_length (b : BitVec 64) : (lengthBytes b).length = 8 := by simp [lengthBytes]

/-- The pad has the length PadCount says (41 R133). -/
theorem padBytes_length (fill : Nat) (h : fill < 64) : (padBytes fill).length = padCount fill := by
  unfold padBytes padCount
  split <;> simp <;> omega

/-- The counter and the fill move together, also where the counter wraps (10 R26). -/
theorem fill_of_addBits (c c' : Ctx) (n : Nat) (h : c'.bitCount = addBits c.bitCount n) :
    c'.fill = (c.fill + n) % 64 := by
  unfold Ctx.fill
  rw [h, addBits, BitVec.toNat_add, BitVec.toNat_ofNat]
  simp only [Nat.shiftRight_eq_div_pow]
  omega

theorem addBits_addBits (b : BitVec 64) (m n : Nat) : addBits (addBits b m) n = addBits b (m + n) := by
  apply BitVec.eq_of_toNat_eq
  simp only [addBits, BitVec.toNat_add, BitVec.toNat_ofNat]
  omega

@[simp] theorem addBits_zero (b : BitVec 64) : addBits b 0 = b := by simp [addBits]

theorem transformSpans_add (j k : Nat) (st : Quad) (bytes : List Byte) :
    transformSpans (j + k) st bytes = transformSpans k (transformSpans j st bytes) (bytes.drop (64 * j)) := by
  induction j generalizing st bytes with
  | zero => simp [transformSpans]
  | succ j ih =>
    rw [Nat.add_right_comm, transformSpans, ih, transformSpans, List.drop_drop]
    congr 2
    omega

/-- Whole spans do not read what follows them. -/
theorem transformSpans_append (k : Nat) (st : Quad) (a b : List Byte) (h : 64 * k ≤ a.length) :
    transformSpans k st (a ++ b) = transformSpans k st a := by
  induction k generalizing st a with
  | zero => rfl
  | succ k ih =>
    rw [transformSpans, transformSpans, Block.ofList_append a b (by omega),
      List.drop_append_of_le_length (by omega), ih _ _ (by rw [List.length_drop]; omega)]

@[simp] theorem absorb_bitCount (c : Ctx) (data : List Byte) :
    (absorb c data).bitCount = addBits c.bitCount data.length := by
  simp only [absorb]; split <;> rfl

@[simp] theorem absorb_fill (c : Ctx) (data : List Byte) :
    (absorb c data).fill = (c.fill + data.length) % 64 :=
  fill_of_addBits c _ _ (absorb_bitCount c data)

/-- The buffer filled up by the first bytes of `data` is the first block of the unconsumed input and `data`. -/
theorem bufWriteRun_full (c : Ctx) (data : List Byte) (h : 64 - c.fill ≤ data.length) :
    bufWriteRun c.buf c.fill (data.take (64 - c.fill)) = Block.ofList (c.tail ++ data) := by
  have hf := c.fill_lt
  apply Block.ext_get
  intro j hj
  rw [bufWriteRun_get _ _ _ _ hj, Block.ofList_get _ _ hj]
  by_cases hjf : j < c.fill
  · rw [if_neg (by omega), List.getD_append _ _ _ _ (by simpa using hjf), Ctx.tail_getD c j hjf]
  · rw [if_pos (by simp only [List.length_take]; omega), List.getD_append_right _ _ _ _ (by simp; omega),
      Ctx.tail_length]
    simp only [List.getD_eq_getElem?_getD]
    rw [List.getElem?_take_of_lt (by omega)]

/-- The first `m.length` bytes of a buffer after `m` was written from index 0. -/
theorem map_get_bufWriteRun (buf : Block) (m : List Byte) (h : m.length ≤ 64) :
    (List.range m.length).map (bufWriteRun buf 0 m).get = m := by
  apply List.ext_getElem
  · simp
  · intro i h1 h2
    simp only [List.getElem_map, List.getElem_range]
    rw [bufWriteRun_get _ _ _ _ (by omega), if_pos (by omega)]
    simp [List.getD_eq_getElem?_getD, h2]

/-- Absorb, whole: with `t` the unconsumed input followed by the data, every complete span of `t` is
transformed, in order, and the rest of `t` is the new unconsumed input (40 R112). -/
theorem absorb_spec (c : Ctx) (data : List Byte) :
    (absorb c data).state =
        transformSpans ((c.tail ++ data).length / 64) c.state (c.tail ++ data) ∧
      (absorb c data).tail = (c.tail ++ data).drop (64 * ((c.tail ++ data).length / 64)) := by
  have hf := c.fill_lt
  have hlen : (c.tail ++ data).length = c.fill + data.length := by simp
  by_cases h : 64 - c.fill ≤ data.length
  · have hk : (c.tail ++ data).length / 64 = 1 + (data.drop (64 - c.fill)).length / 64 := by
      rw [hlen, List.length_drop]; omega
    have hdrop : (c.tail ++ data).drop 64 = data.drop (64 - c.fill) := by
      rw [List.drop_append, Ctx.tail_length, List.drop_eq_nil_of_le (by simp; omega), List.nil_append]
    constructor
    · rw [hk, transformSpans_add, hdrop]
      simp only [absorb, if_pos h, bufWriteRun_full c data h]
      rfl
    · have hr : (c.tail ++ data).drop (64 * ((c.tail ++ data).length / 64)) =
          (data.drop (64 - c.fill)).drop (64 * ((data.drop (64 - c.fill)).length / 64)) := by
        rw [hk, ← hdrop, List.drop_drop]; congr 1; omega
      rw [hr]
      set m := (data.drop (64 - c.fill)).drop (64 * ((data.drop (64 - c.fill)).length / 64)) with hm
      have hml : m.length = (absorb c data).fill := by
        rw [absorb_fill, hm]; simp only [List.length_drop]; omega
      have hbuf : (absorb c data).buf = bufWriteRun (bufWriteRun c.buf c.fill (data.take (64 - c.fill))) 0 m := by
        simp only [absorb, if_pos h]; rfl
      rw [Ctx.tail, ← hml, hbuf]
      exact map_get_bufWriteRun _ _ (by rw [hml]; exact (Ctx.fill_lt _).le)
  · have hk : (c.tail ++ data).length / 64 = 0 := by rw [hlen]; omega
    rw [hk]
    constructor
    · simp only [absorb, if_neg h]; rfl
    · have hbuf : (absorb c data).buf = bufWriteRun c.buf c.fill data := by simp only [absorb, if_neg h]
      have hfill : (absorb c data).fill = c.fill + data.length := by rw [absorb_fill]; omega
      rw [Ctx.tail, hfill, hbuf, Nat.mul_zero, List.drop_zero]
      apply List.ext_getElem
      · simp
      · intro i h1 h2
        simp only [List.length_map, List.length_range] at h1
        simp only [List.getElem_map, List.getElem_range]
        rw [bufWriteRun_get _ _ _ _ (by omega)]
        by_cases hi : i < c.fill
        · rw [if_neg (by omega), List.getElem_append_left (by simpa using hi)]
          simp [Ctx.tail]
        · rw [if_pos (by omega), List.getElem_append_right (by simp; omega)]
          simp [List.getD_eq_getElem?_getD, show i - c.fill < data.length by omega]

/-- What the rules read of a context: all but the stale bytes of the buffer (10 R22). -/
structure Ctx.Agree (c d : Ctx) : Prop where
  state : c.state = d.state
  bitCount : c.bitCount = d.bitCount
  tail : c.tail = d.tail

theorem Ctx.Agree.refl (c : Ctx) : c.Agree c := ⟨rfl, rfl, rfl⟩

theorem Ctx.Agree.symm {c d : Ctx} (h : c.Agree d) : d.Agree c := ⟨h.1.symm, h.2.symm, h.3.symm⟩

theorem Ctx.Agree.trans {a b c : Ctx} (h : a.Agree b) (h' : b.Agree c) : a.Agree c :=
  ⟨h.1.trans h'.1, h.2.trans h'.2, h.3.trans h'.3⟩

theorem Ctx.Agree.fill {c d : Ctx} (h : c.Agree d) : c.fill = d.fill := by
  unfold Ctx.fill; rw [h.bitCount]

/-- Absorb does not read the stale bytes. -/
theorem absorb_agree {c d : Ctx} (h : c.Agree d) (data : List Byte) : (absorb c data).Agree (absorb d data) where
  state := by rw [(absorb_spec c data).1, (absorb_spec d data).1, h.tail, h.state]
  bitCount := by rw [absorb_bitCount, absorb_bitCount, h.bitCount]
  tail := by rw [(absorb_spec c data).2, (absorb_spec d data).2, h.tail]

/-- Absorbing twice is absorbing the joined data once. -/
theorem absorb_absorb (c : Ctx) (d1 d2 : List Byte) :
    (absorb (absorb c d1) d2).Agree (absorb c (d1 ++ d2)) := by
  obtain ⟨hs1, ht1⟩ := absorb_spec c d1
  obtain ⟨hs2, ht2⟩ := absorb_spec (absorb c d1) d2
  obtain ⟨hs3, ht3⟩ := absorb_spec c (d1 ++ d2)
  have hj : 64 * ((c.tail ++ d1).length / 64) ≤ (c.tail ++ d1).length := Nat.mul_div_le _ _
  have hrest : (absorb c d1).tail ++ d2 =
      (c.tail ++ (d1 ++ d2)).drop (64 * ((c.tail ++ d1).length / 64)) := by
    rw [ht1, ← List.append_assoc, List.drop_append_of_le_length hj]
  have hcount : (c.tail ++ (d1 ++ d2)).length / 64 =
      (c.tail ++ d1).length / 64 + ((absorb c d1).tail ++ d2).length / 64 := by
    rw [hrest, List.length_drop, ← List.append_assoc, List.length_append]; omega
  refine ⟨?_, ?_, ?_⟩
  · rw [hs2, hs3, hcount, transformSpans_add, ← hrest, ← List.append_assoc,
      transformSpans_append _ _ (c.tail ++ d1) d2 hj, ← hs1]
  · rw [absorb_bitCount, absorb_bitCount, absorb_bitCount, addBits_addBits, List.length_append]
  · rw [ht2, ht3, hcount, Nat.mul_add, ← List.drop_drop, ← hrest]

/-- Absorbing nothing changes nothing (40 R115). -/
theorem absorb_nil (c : Ctx) : absorb c [] = c := by
  have hf := c.fill_lt
  simp only [absorb, List.length_nil, if_neg (show ¬ 64 - c.fill ≤ 0 by omega), addBits_zero, bufWriteRun]

end Sys2Proof.Machine
end

