-- ==== Sys2Proof/Laws/Decode.lean ====
section
/-! SUPPORT. The fields of a CMD word and the shape of what the decoder gives (30_encoding.md R80, R86). -/

namespace Sys2Proof

/-- A CMD word is its three fields. -/
theorem cmdWord_fields (w : Word) : cmdWord (cmdRsv w) (cmdN w) (cmdOp w) = w := by
  apply BitVec.eq_of_getLsbD_eq
  intro i hi
  simp only [cmdWord, cmdRsv, cmdN, cmdOp, BitVec.getLsbD_append, BitVec.getLsbD_extractLsb']
  by_cases h4 : i < 4
  · simp [h4]
  · by_cases h7 : i < 7
    · simp [h4, show i - 4 < 3 by omega, show 4 + (i - 4) = i by omega]
    · simp [h4, show ¬ i - 4 < 3 by omega, show i - 4 - 3 < 25 by omega, show 7 + (i - 4 - 3) = i by omega]

@[simp] theorem cmdOp_cmdWord (r : BitVec 25) (n : BitVec 3) (op : BitVec 4) : cmdOp (cmdWord r n op) = op := by
  apply BitVec.eq_of_getLsbD_eq
  intro i hi
  simp only [cmdOp, cmdWord, BitVec.getLsbD_append, BitVec.getLsbD_extractLsb']
  simp [hi]

@[simp] theorem cmdN_cmdWord (r : BitVec 25) (n : BitVec 3) (op : BitVec 4) : cmdN (cmdWord r n op) = n := by
  apply BitVec.eq_of_getLsbD_eq
  intro i hi
  simp only [cmdN, cmdWord, BitVec.getLsbD_append, BitVec.getLsbD_extractLsb']
  simp [hi, show ¬ 4 + i < 4 by omega, show 4 + i - 4 = i by omega]

@[simp] theorem cmdRsv_cmdWord (r : BitVec 25) (n : BitVec 3) (op : BitVec 4) : cmdRsv (cmdWord r n op) = r := by
  apply BitVec.eq_of_getLsbD_eq
  intro i hi
  simp only [cmdRsv, cmdWord, BitVec.getLsbD_append, BitVec.getLsbD_extractLsb']
  simp [hi, show ¬ 7 + i < 4 by omega, show ¬ 7 + i - 4 < 3 by omega, show 7 + i - 4 - 3 = i by omega]

/-- A legal CMD word is one of the three commands, with a count of at most 4. -/
theorem decodeCmd_form {w : Word} {i : Instr} (h : decodeCmd w = .ok i) :
    i = .init ∨ (∃ n : BitVec 3, n.toNat ≤ 4 ∧ i = .update n) ∨ i = .final := by
  unfold decodeCmd at h
  split at h
  · split at h <;> simp at h
    exact .inl h.symm
  · split at h
    · split at h
      · simp at h
      · split at h
        · simp at h
        · simp at h
          exact .inr (.inl ⟨_, by omega, h.symm⟩)
    · split at h
      · split at h <;> simp at h
        exact .inr (.inr h.symm)
      · simp at h

/-- A step index decodes to the form of its group. -/
theorem decodeStep_form (i : BitVec 6) :
    (∃ j, i = stepIndex 0 j ∧ decodeStep i = .stepF j) ∨ (∃ j, i = stepIndex 1 j ∧ decodeStep i = .stepG j) ∨
      (∃ j, i = stepIndex 2 j ∧ decodeStep i = .stepH j) ∨ (∃ j, i = stepIndex 3 j ∧ decodeStep i = .stepI j) := by
  revert i; decide

end Sys2Proof
end

