-- ==== Sys2Proof/Laws/State.lean ====
section
/-! SUPPORT. One lemma per field per named update of the state, so that no later proof unfolds one. -/

namespace Sys2Proof.Machine

@[simp] theorem State.raise_ctx (e : ErrorKind) (s : State) : (s.raise e).ctx = s.ctx := rfl
@[simp] theorem State.raise_phase (e : ErrorKind) (s : State) : (s.raise e).phase = s.phase := rfl
@[simp] theorem State.raise_pending (e : ErrorKind) (s : State) : (s.raise e).pending = s.pending := rfl
@[simp] theorem State.raise_digest (e : ErrorKind) (s : State) : (s.raise e).digest = s.digest := rfl
@[simp] theorem State.raise_dvalid (e : ErrorKind) (s : State) : (s.raise e).dvalid = s.dvalid := rfl
@[simp] theorem State.raise_err (e : ErrorKind) (s : State) : (s.raise e).err = s.err.set e := rfl
@[simp] theorem State.raise_din (e : ErrorKind) (s : State) : (s.raise e).din = s.din := rfl
@[simp] theorem State.raise_work (e : ErrorKind) (s : State) : (s.raise e).work = s.work := rfl
@[simp] theorem State.raise_seq (e : ErrorKind) (s : State) : (s.raise e).seq = s.seq := rfl
@[simp] theorem State.raise_base (e : ErrorKind) (s : State) : (s.raise e).base = s.base := rfl
@[simp] theorem State.raise_host (e : ErrorKind) (s : State) : (s.raise e).host = s.host := rfl
@[simp] theorem State.raise_turns (e : ErrorKind) (s : State) : (s.raise e).turns = s.turns := rfl
@[simp] theorem State.raise_reads (e : ErrorKind) (s : State) : (s.raise e).reads = s.reads := rfl
@[simp] theorem State.raise_draws (e : ErrorKind) (s : State) : (s.raise e).draws = s.draws := rfl

@[simp] theorem State.clearErrors_ctx (v : Word) (s : State) : (s.clearErrors v).ctx = s.ctx := rfl
@[simp] theorem State.clearErrors_phase (v : Word) (s : State) : (s.clearErrors v).phase = s.phase := rfl
@[simp] theorem State.clearErrors_pending (v : Word) (s : State) : (s.clearErrors v).pending = s.pending := rfl
@[simp] theorem State.clearErrors_digest (v : Word) (s : State) : (s.clearErrors v).digest = s.digest := rfl
@[simp] theorem State.clearErrors_dvalid (v : Word) (s : State) : (s.clearErrors v).dvalid = s.dvalid := rfl
@[simp] theorem State.clearErrors_din (v : Word) (s : State) : (s.clearErrors v).din = s.din := rfl
@[simp] theorem State.clearErrors_work (v : Word) (s : State) : (s.clearErrors v).work = s.work := rfl
@[simp] theorem State.clearErrors_seq (v : Word) (s : State) : (s.clearErrors v).seq = s.seq := rfl
@[simp] theorem State.clearErrors_base (v : Word) (s : State) : (s.clearErrors v).base = s.base := rfl
@[simp] theorem State.clearErrors_host (v : Word) (s : State) : (s.clearErrors v).host = s.host := rfl
@[simp] theorem State.clearErrors_turns (v : Word) (s : State) : (s.clearErrors v).turns = s.turns := rfl
@[simp] theorem State.clearErrors_reads (v : Word) (s : State) : (s.clearErrors v).reads = s.reads := rfl
@[simp] theorem State.clearErrors_draws (v : Word) (s : State) : (s.clearErrors v).draws = s.draws := rfl

@[simp] theorem State.wipe_ctx (s : State) : s.wipe.ctx = Ctx.zero := rfl
@[simp] theorem State.wipe_phase (s : State) : s.wipe.phase = s.phase := rfl
@[simp] theorem State.wipe_pending (s : State) : s.wipe.pending = s.pending := rfl
@[simp] theorem State.wipe_digest (s : State) : s.wipe.digest = s.digest := rfl
@[simp] theorem State.wipe_dvalid (s : State) : s.wipe.dvalid = s.dvalid := rfl
@[simp] theorem State.wipe_err (s : State) : s.wipe.err = s.err := rfl
@[simp] theorem State.wipe_din (s : State) : s.wipe.din = s.din := rfl
@[simp] theorem State.wipe_work (s : State) : s.wipe.work = Work.zero := rfl
@[simp] theorem State.wipe_seq (s : State) : s.wipe.seq = none := rfl
@[simp] theorem State.wipe_base (s : State) : s.wipe.base = s.base := rfl
@[simp] theorem State.wipe_host (s : State) : s.wipe.host = s.host := rfl
@[simp] theorem State.wipe_turns (s : State) : s.wipe.turns = s.turns := rfl
@[simp] theorem State.wipe_reads (s : State) : s.wipe.reads = s.reads := rfl
@[simp] theorem State.wipe_draws (s : State) : s.wipe.draws = s.draws := rfl

@[simp] theorem performInit_ctx (s : State) : (performInit s).ctx = Ctx.initial := rfl
@[simp] theorem performInit_phase (s : State) : (performInit s).phase = .active := rfl
@[simp] theorem performInit_pending (s : State) : (performInit s).pending = s.pending := rfl
@[simp] theorem performInit_digest (s : State) : (performInit s).digest = Quad.zero := rfl
@[simp] theorem performInit_dvalid (s : State) : (performInit s).dvalid = false := rfl
@[simp] theorem performInit_err (s : State) : (performInit s).err = s.err := rfl
@[simp] theorem performInit_din (s : State) : (performInit s).din = s.din := rfl
@[simp] theorem performInit_work (s : State) : (performInit s).work = s.work := rfl
@[simp] theorem performInit_seq (s : State) : (performInit s).seq = s.seq := rfl
@[simp] theorem performInit_base (s : State) : (performInit s).base = s.base := rfl
@[simp] theorem performInit_host (s : State) : (performInit s).host = s.host := rfl
@[simp] theorem performInit_turns (s : State) : (performInit s).turns = s.turns := rfl
@[simp] theorem performInit_reads (s : State) : (performInit s).reads = s.reads := rfl
@[simp] theorem performInit_draws (s : State) : (performInit s).draws = s.draws := rfl

@[simp] theorem performFinal_ctx (s : State) : (performFinal s).ctx = Ctx.zero := rfl
@[simp] theorem performFinal_phase (s : State) : (performFinal s).phase = .done := rfl
@[simp] theorem performFinal_pending (s : State) : (performFinal s).pending = s.pending := rfl
@[simp] theorem performFinal_digest (s : State) : (performFinal s).digest = (finished s.ctx).state := rfl
@[simp] theorem performFinal_dvalid (s : State) : (performFinal s).dvalid = true := rfl
@[simp] theorem performFinal_err (s : State) : (performFinal s).err = s.err := rfl
@[simp] theorem performFinal_din (s : State) : (performFinal s).din = s.din := rfl
@[simp] theorem performFinal_work (s : State) : (performFinal s).work = Work.zero := rfl
@[simp] theorem performFinal_seq (s : State) : (performFinal s).seq = none := rfl
@[simp] theorem performFinal_base (s : State) : (performFinal s).base = s.base := rfl
@[simp] theorem performFinal_host (s : State) : (performFinal s).host = s.host := rfl
@[simp] theorem performFinal_turns (s : State) : (performFinal s).turns = s.turns := rfl
@[simp] theorem performFinal_reads (s : State) : (performFinal s).reads = s.reads := rfl
@[simp] theorem performFinal_draws (s : State) : (performFinal s).draws = s.draws := rfl

@[simp] theorem State.resetEvent_ctx (s : State) : s.resetEvent.ctx = Ctx.zero := rfl
@[simp] theorem State.resetEvent_phase (s : State) : s.resetEvent.phase = .uninit := rfl
@[simp] theorem State.resetEvent_pending (s : State) : s.resetEvent.pending = none := rfl
@[simp] theorem State.resetEvent_digest (s : State) : s.resetEvent.digest = Quad.zero := rfl
@[simp] theorem State.resetEvent_dvalid (s : State) : s.resetEvent.dvalid = false := rfl
@[simp] theorem State.resetEvent_err (s : State) : s.resetEvent.err = ErrFlags.clear := rfl
@[simp] theorem State.resetEvent_din (s : State) : s.resetEvent.din = 0 := rfl
@[simp] theorem State.resetEvent_work (s : State) : s.resetEvent.work = Work.zero := rfl
@[simp] theorem State.resetEvent_seq (s : State) : s.resetEvent.seq = none := rfl
@[simp] theorem State.resetEvent_base (s : State) : s.resetEvent.base = s.base := rfl
@[simp] theorem State.resetEvent_host (s : State) : s.resetEvent.host = s.host := rfl
@[simp] theorem State.resetEvent_turns (s : State) : s.resetEvent.turns = s.turns := rfl
@[simp] theorem State.resetEvent_reads (s : State) : s.resetEvent.reads = s.reads := rfl
@[simp] theorem State.resetEvent_draws (s : State) : s.resetEvent.draws = s.draws := rfl

@[simp] theorem State.resetAt_ctx (b : Nat) : (State.resetAt b).ctx = Ctx.zero := rfl
@[simp] theorem State.resetAt_phase (b : Nat) : (State.resetAt b).phase = .uninit := rfl
@[simp] theorem State.resetAt_pending (b : Nat) : (State.resetAt b).pending = none := rfl
@[simp] theorem State.resetAt_digest (b : Nat) : (State.resetAt b).digest = Quad.zero := rfl
@[simp] theorem State.resetAt_dvalid (b : Nat) : (State.resetAt b).dvalid = false := rfl
@[simp] theorem State.resetAt_err (b : Nat) : (State.resetAt b).err = ErrFlags.clear := rfl
@[simp] theorem State.resetAt_din (b : Nat) : (State.resetAt b).din = 0 := rfl
@[simp] theorem State.resetAt_work (b : Nat) : (State.resetAt b).work = Work.zero := rfl
@[simp] theorem State.resetAt_seq (b : Nat) : (State.resetAt b).seq = none := rfl
@[simp] theorem State.resetAt_base (b : Nat) : (State.resetAt b).base = b := rfl
@[simp] theorem State.resetAt_host (b : Nat) : (State.resetAt b).host = [] := rfl
@[simp] theorem State.resetAt_turns (b : Nat) : (State.resetAt b).turns = [] := rfl
@[simp] theorem State.resetAt_reads (b : Nat) : (State.resetAt b).reads = [] := rfl
@[simp] theorem State.resetAt_draws (b : Nat) : (State.resetAt b).draws = 0 := rfl

/-- What a transform leaves: everything but the working state and the draw counter as it was. -/
theorem State.afterTransforms_eq (k : Nat) (s : State) :
    ∃ w d, s.afterTransforms k = { s with work := w, draws := d } := by
  unfold State.afterTransforms
  split
  · exact ⟨s.work, s.draws, rfl⟩
  · exact ⟨_, _, rfl⟩

@[simp] theorem State.afterTransforms_ctx (k : Nat) (s : State) : (s.afterTransforms k).ctx = s.ctx := by
  unfold State.afterTransforms; split <;> rfl
@[simp] theorem State.afterTransforms_phase (k : Nat) (s : State) : (s.afterTransforms k).phase = s.phase := by
  unfold State.afterTransforms; split <;> rfl
@[simp] theorem State.afterTransforms_pending (k : Nat) (s : State) : (s.afterTransforms k).pending = s.pending := by
  unfold State.afterTransforms; split <;> rfl
@[simp] theorem State.afterTransforms_digest (k : Nat) (s : State) : (s.afterTransforms k).digest = s.digest := by
  unfold State.afterTransforms; split <;> rfl
@[simp] theorem State.afterTransforms_dvalid (k : Nat) (s : State) : (s.afterTransforms k).dvalid = s.dvalid := by
  unfold State.afterTransforms; split <;> rfl
@[simp] theorem State.afterTransforms_err (k : Nat) (s : State) : (s.afterTransforms k).err = s.err := by
  unfold State.afterTransforms; split <;> rfl
@[simp] theorem State.afterTransforms_din (k : Nat) (s : State) : (s.afterTransforms k).din = s.din := by
  unfold State.afterTransforms; split <;> rfl
@[simp] theorem State.afterTransforms_seq (k : Nat) (s : State) : (s.afterTransforms k).seq = s.seq := by
  unfold State.afterTransforms; split <;> rfl
@[simp] theorem State.afterTransforms_base (k : Nat) (s : State) : (s.afterTransforms k).base = s.base := by
  unfold State.afterTransforms; split <;> rfl
@[simp] theorem State.afterTransforms_host (k : Nat) (s : State) : (s.afterTransforms k).host = s.host := by
  unfold State.afterTransforms; split <;> rfl
@[simp] theorem State.afterTransforms_turns (k : Nat) (s : State) : (s.afterTransforms k).turns = s.turns := by
  unfold State.afterTransforms; split <;> rfl
@[simp] theorem State.afterTransforms_reads (k : Nat) (s : State) : (s.afterTransforms k).reads = s.reads := by
  unfold State.afterTransforms; split <;> rfl
@[simp] theorem State.afterTransforms_zero (s : State) : s.afterTransforms 0 = s := rfl

@[simp] theorem performUpdate_ctx (n : Nat) (v : Word) (s : State) : (performUpdate n v s).ctx = absorb s.ctx (lanes v n) := by
  simp [performUpdate]
@[simp] theorem performUpdate_phase (n : Nat) (v : Word) (s : State) : (performUpdate n v s).phase = s.phase := by
  simp [performUpdate]
@[simp] theorem performUpdate_pending (n : Nat) (v : Word) (s : State) : (performUpdate n v s).pending = s.pending := by
  simp [performUpdate]
@[simp] theorem performUpdate_digest (n : Nat) (v : Word) (s : State) : (performUpdate n v s).digest = s.digest := by
  simp [performUpdate]
@[simp] theorem performUpdate_dvalid (n : Nat) (v : Word) (s : State) : (performUpdate n v s).dvalid = s.dvalid := by
  simp [performUpdate]
@[simp] theorem performUpdate_err (n : Nat) (v : Word) (s : State) : (performUpdate n v s).err = s.err := by
  simp [performUpdate]
@[simp] theorem performUpdate_din (n : Nat) (v : Word) (s : State) : (performUpdate n v s).din = s.din := by
  simp [performUpdate]
@[simp] theorem performUpdate_seq (n : Nat) (v : Word) (s : State) : (performUpdate n v s).seq = s.seq := by
  simp [performUpdate]
@[simp] theorem performUpdate_base (n : Nat) (v : Word) (s : State) : (performUpdate n v s).base = s.base := by
  simp [performUpdate]
@[simp] theorem performUpdate_host (n : Nat) (v : Word) (s : State) : (performUpdate n v s).host = s.host := by
  simp [performUpdate]
@[simp] theorem performUpdate_turns (n : Nat) (v : Word) (s : State) : (performUpdate n v s).turns = s.turns := by
  simp [performUpdate]
@[simp] theorem performUpdate_reads (n : Nat) (v : Word) (s : State) : (performUpdate n v s).reads = s.reads := by
  simp [performUpdate]

/-- The flag read after one flag is set. -/
@[simp] theorem ErrFlags.get_set (f : ErrFlags) (e e' : ErrorKind) :
    (f.set e).get e' = (if e' = e then true else f.get e') := by
  cases e <;> cases e' <;> rfl

/-- The flag read after a clearing write: kept where its STATUS bit of the written word is 0. -/
theorem State.clearErrors_get (v : Word) (s : State) (e : ErrorKind) :
    (s.clearErrors v).err.get e = (s.err.get e && !v.getLsbD e.code) := by
  cases e <;> rfl

end Sys2Proof.Machine
end

