-- ==== Sys2Proof/Laws/Commands.lean ====
section
/-! SUPPORT. What a command does at its two transitions (60_exceptions.md R201, 20_memory.md R51). -/

namespace Sys2Proof.Machine

/-- What the engine does for a pending command, before PENDING is emptied (20 R51). -/
def Pending.perform (p : Pending) (s : State) : State :=
  match p.op with
  | .init => performInit s
  | .update => performUpdate p.n.val p.snap s
  | .final => performFinal s

theorem runCommand_pending {op : Op} {n : Fin 5} {f : Word → State → State} {s : State} {p : Pending}
    (h : s.pending = some p) : runCommand op n f s = .next { f p.snap s with pending := none } := by
  simp only [runCommand, h]

theorem runCommand_idle {op : Op} {n : Fin 5} {f : Word → State → State} {s : State} (h : s.pending = none) :
    runCommand op n f s = .next (accept op n s) := by
  simp only [runCommand, h]

theorem count_toNat (n : Fin 5) : (BitVec.ofNat 3 n.val).toNat = n.val := by
  rw [BitVec.toNat_ofNat]; omega

theorem execUpdate_of_lt {n : BitVec 3} (h : n.toNat < 5) (s : State) :
    execUpdate n s = runCommand .update ⟨n.toNat, h⟩ (performUpdate n.toNat) s := by
  simp only [execUpdate, dif_pos h]

/-- The engine's step on a pending command. -/
theorem exec_pending {s : State} {p : Pending} (h : s.pending = some p) :
    exec p.instr s = .next { p.perform s with pending := none } := by
  obtain ⟨op, n, v⟩ := p
  cases op with
  | init => show execInit s = _; unfold execInit; rw [runCommand_pending h]; rfl
  | update =>
    show execUpdate (BitVec.ofNat 3 n.val) s = _
    rw [execUpdate_of_lt (by rw [count_toNat]; exact n.isLt), runCommand_pending h]
    simp only [count_toNat, Pending.perform]
  | final => show execFinal s = _; unfold execFinal; rw [runCommand_pending h]; rfl

/-- Acceptance: the command becomes PENDING, or it is dropped with ERR_MISUSE (60 R201, R202). -/
theorem accept_cases (op : Op) (n : Fin 5) (s : State) :
    ((op = .init ∨ s.phase = .active) ∧ accept op n s = { s with pending := some { op := op, n := n, snap := s.din } }) ∨
      (op ≠ .init ∧ s.phase ≠ .active ∧ accept op n s = s.raise .misuse) := by
  unfold accept
  by_cases h : op ≠ .init ∧ s.phase ≠ .active
  · exact .inr ⟨h.1, h.2, if_pos h⟩
  · refine .inl ⟨?_, if_neg h⟩
    by_cases ho : op = .init
    · exact .inl ho
    · by_cases hp : s.phase = .active
      · exact .inr hp
      · exact absurd ⟨ho, hp⟩ h

/-- A decoded command on an idle instance is its acceptance. -/
theorem exec_idle {w : Word} {i : Instr} {s : State} (hw : decodeCmd w = .ok i) (h : s.pending = none) :
    ∃ op n, ({ op := op, n := n, snap := s.din } : Pending).instr = i ∧ (op ≠ .update → n = 0) ∧
      exec i s = .next (accept op n s) := by
  rcases decodeCmd_form hw with rfl | ⟨n, hn, rfl⟩ | rfl
  · refine ⟨.init, 0, rfl, fun _ => rfl, ?_⟩
    show execInit s = _
    unfold execInit; exact runCommand_idle h
  · refine ⟨.update, ⟨n.toNat, by omega⟩, ?_, fun h => absurd rfl h, ?_⟩
    · simp [Pending.instr]
    · show execUpdate n s = _
      rw [execUpdate_of_lt (by omega), runCommand_idle h]
  · refine ⟨.final, 0, rfl, fun _ => rfl, ?_⟩
    show execFinal s = _
    unfold execFinal; exact runCommand_idle h

/-- A step form writes the four working words and nothing else (43 R178). -/
theorem exec_decodeStep (i : BitVec 6) (s : State) :
    exec (decodeStep i) s =
      .next { s with work := { s.work with cur := stepWords (mixOf i) i s.work.cur s.work.m } } := by
  have hmix : ∀ j, mixOf (stepIndex 0 j) = mixF ∧ mixOf (stepIndex 1 j) = mixG ∧
      mixOf (stepIndex 2 j) = mixH ∧ mixOf (stepIndex 3 j) = mixI := by
    intro j
    have h : ∀ j, (stepIndex 0 j).extractLsb' 4 2 = 0 ∧ (stepIndex 1 j).extractLsb' 4 2 = 1 ∧
        (stepIndex 2 j).extractLsb' 4 2 = 2 ∧ (stepIndex 3 j).extractLsb' 4 2 = 3 := by decide
    obtain ⟨h0, h1, h2, h3⟩ := h j
    unfold mixOf; rw [h0, h1, h2, h3]; exact ⟨rfl, rfl, rfl, rfl⟩
  rcases decodeStep_form i with ⟨j, hi, hd⟩ | ⟨j, hi, hd⟩ | ⟨j, hi, hd⟩ | ⟨j, hi, hd⟩
  · rw [hd, hi, (hmix j).1]; rfl
  · rw [hd, hi, (hmix j).2.1]; rfl
  · rw [hd, hi, (hmix j).2.2.1]; rfl
  · rw [hd, hi, (hmix j).2.2.2]; rfl

end Sys2Proof.Machine
end

