-- ==== Sys2Proof/Laws/Bus.lean ====
section
/-! SUPPORT. Everything a host action can do: one inversion lemma for each operation of the bus. -/

namespace Sys2Proof.Machine

/-- A read returns a register and changes nothing, or returns 0 and raises ERR_ACCESS (20 R53 to R61). -/
theorem busRead_cases (off size : Nat) (s : State) :
    (accessLegal off size = true ∧ ∃ v, s.readReg (regAt off) = some v ∧ busRead off size s = (v, s)) ∨
      ((accessLegal off size = false ∨ s.readReg (regAt off) = none) ∧
        busRead off size s = (0, s.raise .access)) := by
  unfold busRead
  cases hl : accessLegal off size with
  | false => exact .inr ⟨.inl rfl, rfl⟩
  | true =>
    cases hr : s.readReg (regAt off) with
    | none => exact .inr ⟨.inr rfl, rfl⟩
    | some v => exact .inl ⟨rfl, v, rfl, rfl⟩

/-- Bit 0 of STATUS is BUSY (20 R58). -/
theorem State.statusWord_busy (s : State) : s.statusWord.getLsbD 0 = s.busy := by
  have h : ∀ (x : Word) (k : Nat), 0 < k → (x <<< k).getLsbD 0 = false := by
    intro x k hk; rw [BitVec.getLsbD_shiftLeft, decide_eq_true hk]; simp
  have hf : ∀ (b : Bool) (k : Nat), 0 < k → (flagBit b k).getLsbD 0 = false := by
    intro b k hk; unfold flagBit; exact h _ k hk
  have hb : ∀ b : Bool, (flagBit b 0).getLsbD 0 = b := by decide
  unfold State.statusWord
  simp only [BitVec.getLsbD_or, hf _ 19 (by decide), hf _ 18 (by decide), hf _ 17 (by decide),
    hf _ 16 (by decide), h _ 4 (by decide), h _ 2 (by decide), hf _ 1 (by decide), hb, Bool.false_or]

/-- A kept read of STATUS appends the STATUS word and does nothing else. -/
@[simp] theorem State.keepRead_status (s : State) :
    s.keepRead 0x08 Config.busBytes = { s with reads := s.reads ++ [s.statusWord] } := rfl

/-- One pass of WAIT keeps the STATUS word, and the loop goes on exactly while BUSY = 1 (30 R88). -/
theorem State.pollStatus_eq (s : State) :
    s.pollStatus =
      { s with reads := s.reads ++ [s.statusWord], host := if s.busy then .wait :: s.host else s.host } := by
  have h : (busRead 0x08 Config.busBytes s).1 = s.statusWord := rfl
  unfold State.pollStatus
  rw [h, State.statusWord_busy, State.keepRead_status]
  cases s.busy <;> rfl

/-- A CMD write raises one error, or the command becomes PENDING (60 R201). -/
theorem cmdWrite_cases (w : Word) (s : State) :
    (s.busy = true ∧ cmdWrite w s = .next (s.raise .busy)) ∨
      (s.pending = none ∧ (∃ e, decodeCmd w = .error e) ∧ cmdWrite w s = .next (s.raise .cmd)) ∨
      (s.pending = none ∧ ∃ i op n, decodeCmd w = .ok i ∧
        ({ op := op, n := n, snap := s.din } : Pending).instr = i ∧ (op ≠ .update → n = 0) ∧
        ((op ≠ .init ∧ s.phase ≠ .active ∧ cmdWrite w s = .next (s.raise .misuse)) ∨
          ((op = .init ∨ s.phase = .active) ∧
            cmdWrite w s = .next { s with pending := some { op := op, n := n, snap := s.din } }))) := by
  unfold cmdWrite
  cases hb : s.busy with
  | true => exact .inl ⟨rfl, rfl⟩
  | false =>
    have hp : s.pending = none := by simpa [State.busy] using hb
    cases hw : decodeCmd w with
    | error e => exact .inr (.inl ⟨hp, ⟨e, rfl⟩, rfl⟩)
    | ok i =>
      obtain ⟨op, n, hi, hn, he⟩ := exec_idle hw hp
      refine .inr (.inr ⟨hp, i, op, n, rfl, hi, hn, ?_⟩)
      rcases accept_cases op n s with ⟨ha, h⟩ | ⟨ho, ha, h⟩
      · exact .inr ⟨ha, by simp only [Bool.false_eq_true, if_false, he, h]⟩
      · exact .inl ⟨ho, ha, by simp only [Bool.false_eq_true, if_false, he, h]⟩

/-- The ways a host action `a` changes the state. -/
inductive HostEffect (a : HostAction) (s : State) : State → Prop where
  | read (r : List Word) : HostEffect a s { s with reads := r }
  | error (e : ErrorKind) (r : List Word) : HostEffect a s { s.raise e with reads := r }
  | din (v : Word) : HostEffect a s { s with din := v }
  | clear (v : Word) : HostEffect a s (s.clearErrors v)
  | accept (op : Op) (n : Fin 5) (hp : s.pending = none) (ha : op = .init ∨ s.phase = .active)
      (hn : op ≠ .update → n = 0) : HostEffect a s { s with pending := some { op := op, n := n, snap := s.din } }
  | poll (ha : a = .wait) (h : s.busy = true) :
      HostEffect a s { s with host := .wait :: s.host, reads := s.reads ++ [s.statusWord] }
  | reset (ha : a = .reset) : HostEffect a s s.resetEvent

theorem HostEffect.raised (a : HostAction) (e : ErrorKind) (s : State) : HostEffect a s (s.raise e) := by
  have h : { s.raise e with reads := s.reads } = s.raise e := rfl
  rw [← h]; exact .error e s.reads

theorem cmdWrite_effect (a : HostAction) {w : Word} {s t : State} (h : cmdWrite w s = .next t) : HostEffect a s t := by
  rcases cmdWrite_cases w s with ⟨-, h'⟩ | ⟨-, -, h'⟩ | ⟨hp, i, op, n, -, -, hn, ⟨-, -, h'⟩ | ⟨ha, h'⟩⟩ <;>
    obtain rfl := Host.Outcome.next.inj (h'.symm.trans h)
  · exact .raised _ _ _
  · exact .raised _ _ _
  · exact .raised _ _ _
  · exact .accept op n hp ha hn

theorem busWrite_effect (a : HostAction) {off size : Nat} {v : Word} {s t : State} (h : busWrite off size v s = .next t) :
    HostEffect a s t := by
  unfold busWrite at h
  split at h
  · split at h
    · exact cmdWrite_effect a h
    · obtain rfl := Host.Outcome.next.inj h; exact .din v
    · obtain rfl := Host.Outcome.next.inj h; exact .clear v
    · obtain rfl := Host.Outcome.next.inj h; exact .raised _ _ _
    · obtain rfl := Host.Outcome.next.inj h; exact .raised _ _ _
  · obtain rfl := Host.Outcome.next.inj h; exact .raised _ _ _

/-- Every next state of a host action is one of the listed effects. -/
theorem hostAct_effect {a : HostAction} {s t : State} (h : hostAct a s = .next t) : HostEffect a s t := by
  cases a with
  | read addr size =>
    simp only [hostAct] at h
    split at h
    · exact absurd h (by simp)
    · next off _ =>
      obtain rfl := Host.Outcome.next.inj h
      unfold State.keepRead
      rcases busRead_cases off size s with ⟨-, v, -, hr⟩ | ⟨-, hr⟩ <;> rw [hr]
      · exact .read _
      · exact .error _ _
  | write addr size v =>
    simp only [hostAct] at h
    split at h
    · exact absurd h (by simp)
    · exact busWrite_effect _ h
  | wait =>
    obtain rfl := Host.Outcome.next.inj h
    rw [State.pollStatus_eq]
    cases hb : s.busy
    · exact .read _
    · exact .poll rfl hb
  | reset => obtain rfl := Host.Outcome.next.inj h; exact .reset rfl

end Sys2Proof.Machine
end

