-- ==== Sys2Proof/Laws/PerInstr.lean ====
section
/-! SUPPORT. The families of statements made per instruction: one lemma per constructor of Instr. -/

namespace Sys2Proof.Laws

/-- The match value of the instruction's row in spec/opcode_table.json. -/
def rowMatch : Instr → Nat
  | .init => 0x00000001
  | .update _ => 0x00000002
  | .final => 0x00000003
  | .stepF _ => 0x00
  | .stepG _ => 0x10
  | .stepH _ => 0x20
  | .stepI _ => 0x30

/-- The mask of the instruction's row in spec/opcode_table.json. -/
def rowMask : Instr → Nat
  | .init => 0xFFFFFFFF
  | .update _ => 0xFFFFFF8F
  | .final => 0xFFFFFFFF
  | .stepF _ => 0x30
  | .stepG _ => 0x30
  | .stepH _ => 0x30
  | .stepI _ => 0x30

/-- The instruction's word carries the fixed bits its opcode-table row gives, and fits the row's width. -/
def EncodingMatchesTable.Statement (i : Instr) : Prop := encode i &&& rowMask i = rowMatch i ∧ encode i < 2 ^ i.nbits

theorem EncodingMatchesTable.init : EncodingMatchesTable.Statement .init := by unfold Statement; decide
theorem EncodingMatchesTable.update (n : BitVec 3) : EncodingMatchesTable.Statement (.update n) := by
  unfold Statement; revert n; decide
theorem EncodingMatchesTable.final : EncodingMatchesTable.Statement .final := by unfold Statement; decide
theorem EncodingMatchesTable.stepF (j : BitVec 4) : EncodingMatchesTable.Statement (.stepF j) := by
  unfold Statement; revert j; decide
theorem EncodingMatchesTable.stepG (j : BitVec 4) : EncodingMatchesTable.Statement (.stepG j) := by
  unfold Statement; revert j; decide
theorem EncodingMatchesTable.stepH (j : BitVec 4) : EncodingMatchesTable.Statement (.stepH j) := by
  unfold Statement; revert j; decide
theorem EncodingMatchesTable.stepI (j : BitVec 4) : EncodingMatchesTable.Statement (.stepI j) := by
  unfold Statement; revert j; decide

end Sys2Proof.Laws
end

