-- ==== Sys2Proof/Laws/Step.lean ====
section
/-! SUPPORT. Everything a step can do: the inversion lemma later proofs cite instead of unfolding `step`. -/

namespace Sys2Proof.Machine

/-- A listed turn is taken as it stands. -/
theorem drawTurn_listed {s : State} {a : Agent} {ts : List Agent} (h : s.turns = a :: ts) :
    s.drawTurn = (a, { s with turns := ts }) := by
  unfold State.drawTurn; rw [h]

/-- With no turn listed and none dealt to the host, the engine moves. -/
theorem drawTurn_dealt_engine {s : State} (h : s.turns = []) (hf : Config.freeHostTurns s.draws = 0) :
    s.drawTurn = (.engine, { s with draws := s.draws + 1 }) := by
  unfold State.drawTurn; rw [h, hf]

/-- With no turn listed and some dealt to the host, the host moves and the rest is listed, the engine's last. -/
theorem drawTurn_dealt_host {s : State} {k : Nat} (h : s.turns = []) (hf : Config.freeHostTurns s.draws = k + 1) :
    s.drawTurn = (.host, { s with turns := List.replicate k .host ++ [.engine], draws := s.draws + 1 }) := by
  unfold State.drawTurn; rw [h, hf]

/-- Drawing a turn changes at most the list of turns and the draw counter. -/
theorem drawTurn_frame (s : State) : ∃ ts d, s.drawTurn.2 = { s with turns := ts, draws := d } := by
  cases ht : s.turns with
  | cons a ts => rw [drawTurn_listed ht]; exact ⟨ts, s.draws, rfl⟩
  | nil =>
    cases hf : Config.freeHostTurns s.draws with
    | zero => rw [drawTurn_dealt_engine ht hf]; exact ⟨s.turns, _, rfl⟩
    | succ k => rw [drawTurn_dealt_host ht hf]; exact ⟨_, _, rfl⟩

/-- Taking a turn changes at most the list of turns and the draw counter. -/
theorem nextAgent_frame (s : State) : ∃ ts d, s.nextAgent.2 = { s with turns := ts, draws := d } := by
  unfold State.nextAgent
  split
  · exact drawTurn_frame s
  · exact ⟨s.turns, s.draws, rfl⟩
  · exact ⟨s.turns, s.draws, rfl⟩
  · exact ⟨s.turns, s.draws, rfl⟩

/-- Only an agent that can move is picked, and none only where neither can. -/
theorem nextAgent_ready (s : State) :
    (s.nextAgent.1 = some .engine → s.engineReady = true) ∧ (s.nextAgent.1 = some .host → s.hostReady = true) ∧
      (s.nextAgent.1 = none → s.engineReady = false ∧ s.hostReady = false) := by
  unfold State.nextAgent
  split <;> simp_all

theorem busy_iff (s : State) : s.busy = true ↔ ∃ p, s.pending = some p := by
  simp [State.busy, Option.isSome_iff_exists]

theorem engineStep_pending {s : State} {p : Pending} (h : s.pending = some p) : engineStep s = exec p.instr s := by
  simp only [engineStep, h]

theorem hostStep_cons {s : State} {a : HostAction} {rest : List HostAction} (h : s.host = a :: rest) :
    hostStep s = hostAct a { s with host := rest } := by
  unfold hostStep; rw [h]

theorem step_of_engine {s s' : State} (hi : s.seq = none) (h : s.nextAgent = (some .engine, s')) :
    step s = engineStep s' := by
  unfold step; rw [hi, h]

theorem step_of_host {s s' : State} (hi : s.seq = none) (h : s.nextAgent = (some .host, s')) :
    step s = hostStep s' := by
  unfold step; rw [hi, h]

theorem step_of_seq {s : State} {i : BitVec 6} (h : s.seq = some i) :
    step s = mapNext (State.advanceSeq i) (exec (decodeStep i) s) := by
  unfold step; rw [h]

theorem nextAgent_both {s : State} (he : s.engineReady = true) (hh : s.hostReady = true) :
    s.nextAgent = (some s.drawTurn.1, s.drawTurn.2) := by
  unfold State.nextAgent; rw [he, hh]

theorem nextAgent_engine {s : State} (he : s.engineReady = true) (hh : s.hostReady = false) :
    s.nextAgent = (some .engine, s) := by
  unfold State.nextAgent; rw [he, hh]

theorem nextAgent_host {s : State} (he : s.engineReady = false) (hh : s.hostReady = true) :
    s.nextAgent = (some .host, s) := by
  unfold State.nextAgent; rw [he, hh]

/-- The host's step while a command is pending: a reset drops the command, and every other action leaves it, the
turns and the draw counter as they were. -/
theorem hostStep_pending {s t : State} {p : Pending} (hp : s.pending = some p) (h : hostStep s = .next t) :
    ((∃ rest, s.host = .reset :: rest) ∧ t.pending = none) ∨
      (t.seq = s.seq ∧ t.pending = some p ∧ t.turns = s.turns ∧ t.draws = s.draws) := by
  cases hh : s.host with
  | nil =>
    unfold hostStep at h; rw [hh] at h
    obtain rfl := Host.Outcome.next.inj h
    exact .inr ⟨rfl, hp, rfl, rfl⟩
  | cons a rest =>
    rw [hostStep_cons hh] at h
    cases hostAct_effect h with
    | accept _ _ hn => exact absurd (hn.symm.trans hp) nofun
    | reset ha => subst ha; exact .inl ⟨⟨rest, rfl⟩, rfl⟩
    | _ => exact .inr ⟨rfl, hp, rfl, rfl⟩

/-- A run of one step more, after a step that answers a next state. -/
theorem run_succ_next {s t : State} (h : step s = .next t) (k : Nat) :
    Host.Core.run core (k + 1) s = Host.Core.run core k t := by
  have hc : core.step s = step s := rfl
  simp only [Host.Core.run, hc, h]

/-- A run ends at a fault. -/
theorem run_succ_fault {s : State} {r : Fault} (h : step s = .fault r) (k : Nat) :
    Host.Core.run core (k + 1) s = .fault r := by
  have hc : core.step s = step s := rfl
  simp only [Host.Core.run, hc, h]

/-- One step is one of: the step a running transform has reached; the engine's performance of the pending
command; one action of the host; or nothing, where no agent can move. -/
inductive StepCase (s : State) : Result → Prop where
  | sequencer (i : BitVec 6) (hi : s.seq = some i) :
      StepCase s (mapNext (State.advanceSeq i) (exec (decodeStep i) s))
  | engine (p : Pending) (ts : List Agent) (d : Nat) (hi : s.seq = none) (hp : s.pending = some p) :
      StepCase s (exec p.instr { s with turns := ts, draws := d })
  | host (a : HostAction) (rest : List HostAction) (ts : List Agent) (d : Nat) (hi : s.seq = none)
      (hh : s.host = a :: rest) (hr : s.hostReady = true) :
      StepCase s (hostAct a { s with turns := ts, draws := d, host := rest })
  | idle (hi : s.seq = none) (hp : s.pending = none) (hr : s.hostReady = false) : StepCase s (.next s)

theorem step_case (s : State) : StepCase s (step s) := by
  unfold step
  split
  · next i hi => exact .sequencer i hi
  · next hi =>
    obtain ⟨ts, d, hf⟩ := nextAgent_frame s
    obtain ⟨he, hh, hn⟩ := nextAgent_ready s
    split
    · next s' hs =>
      rw [hs] at hf he; cases hf
      obtain ⟨p, hp⟩ := (busy_iff s).mp (he rfl)
      rw [engineStep_pending (s := { s with turns := ts, draws := d }) hp]
      exact .engine p ts d hi hp
    · next s' hs =>
      rw [hs] at hf hh; cases hf
      have hr := hh rfl
      obtain ⟨a, rest, hl⟩ : ∃ a rest, s.host = a :: rest := by
        cases hl : s.host with
        | nil => simp [State.hostReady, hl] at hr
        | cons a rest => exact ⟨a, rest, rfl⟩
      rw [hostStep_cons (s := { s with turns := ts, draws := d }) hl]
      exact .host a rest ts d hi hl hr
    · next s' hs =>
      have hr := hn (by rw [hs])
      have hs' : s' = s := by
        have h2 := congrArg Prod.snd hs
        simpa [State.nextAgent, hr.1, hr.2] using h2.symm
      rw [hs']
      refine .idle hi ?_ hr.2
      simpa [State.engineReady, State.busy] using hr.1

end Sys2Proof.Machine
end

