-- ==== Sys2Proof/Laws/Round.lean ====
section
/-! SUPPORT. The round processor's table bounds, and runs of the machine while a transform is under way. -/

namespace Sys2Proof.Machine

/-- Every shift of the table is between 1 and 31, so no shift reaches the word width (43 R174). -/
theorem shiftAmount_range (i : BitVec 6) : 0 < shiftAmount i ∧ shiftAmount i < 32 := by
  revert i; decide +kernel

theorem runSteps_append (m : Vector Word 16) (is js : List (BitVec 6)) (q : Quad) :
    runSteps m (is ++ js) q = runSteps m js (runSteps m is q) := by
  induction is generalizing q with
  | nil => rfl
  | cons i is ih => exact ih _

/-- A run of `j + k` steps goes on from where a run of `j` steps ends. -/
theorem run_add {j : Nat} (k : Nat) {s t : State} (h : Host.Core.run core j s = .next t) :
    Host.Core.run core (j + k) s = Host.Core.run core k t := by
  induction j generalizing s with
  | zero => cases h; rw [Nat.zero_add]
  | succ j ih =>
    rw [Nat.succ_add]
    cases hs : step s with
    | next u => rw [run_succ_next hs] at h ⊢; exact ih h
    | fault r => rw [run_succ_fault hs] at h; cases h
    | refused r =>
      have hc : core.step s = step s := rfl
      simp only [Host.Core.run, hc, hs] at h
      cases h

/-- `k` steps of a transform that has reached step `i`, before the last: the working words go through steps
`i` to `i + k - 1` and the counter stands at `i + k`. -/
theorem run_transform (k i : Nat) (h : i + k ≤ 63) (s : State) (hs : s.seq = some (BitVec.ofNat 6 i)) :
    Host.Core.run core k s = .next
      { s with
        seq := some (BitVec.ofNat 6 (i + k))
        work := { s.work with cur := runSteps s.work.m ((List.range' i k).map (BitVec.ofNat 6)) s.work.cur } } := by
  induction k generalizing s i with
  | zero =>
    obtain ⟨c, ph, pe, dg, dv, er, din, w, sq, ba, ho, t, r, d⟩ := s
    cases hs
    rfl
  | succ k ih =>
    have hne : BitVec.ofNat 6 i ≠ 63 := by
      intro h'
      have := congrArg BitVec.toNat h'
      simp at this
      omega
    have hst : step s = .next
        { s with
          seq := some (BitVec.ofNat 6 (i + 1))
          work := { s.work with
            cur := stepWords (mixOf (BitVec.ofNat 6 i)) (BitVec.ofNat 6 i) s.work.cur s.work.m } } := by
      rw [step_of_seq hs, exec_decodeStep]
      simp only [mapNext, State.advanceSeq, if_neg hne]
      rw [BitVec.ofNat_add]
      rfl
    rw [run_succ_next hst, ih (i + 1) (by omega) _ rfl, Nat.add_right_comm i 1 k]
    simp only [List.range'_succ, List.map_cons, runSteps, Nat.add_assoc]

end Sys2Proof.Machine
end

