-- ==== Sys2Proof/Laws/Sine.lean ====
section
/-! SUPPORT. The sine of whole numbers of radians, by integers: an approximation at the scale `2^200` by the addition
formulas, its error, and how it gives the floor that 43_round_processor.md R176 takes for a round constant. -/

namespace Sys2Proof.Laws

/-- The exponential series at `I`, in its real and imaginary parts. -/
theorem sum_exp_I (k : ℕ) :
    (∑ m ∈ Finset.range (2 * k), Complex.I ^ m / (m.factorial : ℂ)) =
      ((∑ j ∈ Finset.range k, (-1 : ℝ) ^ j / ((2 * j).factorial : ℝ) : ℝ) : ℂ) +
        ((∑ j ∈ Finset.range k, (-1 : ℝ) ^ j / ((2 * j + 1).factorial : ℝ) : ℝ) : ℂ) * Complex.I := by
  induction k with
  | zero => simp
  | succ k ih =>
    rw [show 2 * (k + 1) = 2 * k + 1 + 1 by ring, Finset.sum_range_succ, Finset.sum_range_succ, ih,
      Finset.sum_range_succ, Finset.sum_range_succ, pow_succ, pow_mul, Complex.I_sq]
    push_cast
    ring

/-- The series of `cos 1` and `sin 1`, with the error of `k` terms. -/
theorem one_close (k : ℕ) (hk : 0 < 2 * k) :
    |Real.cos 1 - ∑ j ∈ Finset.range k, (-1 : ℝ) ^ j / ((2 * j).factorial : ℝ)| ≤
        (2 * k + 1 : ℕ) * ((((2 * k).factorial : ℝ) * (2 * k : ℕ))⁻¹) ∧
      |Real.sin 1 - ∑ j ∈ Finset.range k, (-1 : ℝ) ^ j / ((2 * j + 1).factorial : ℝ)| ≤
        (2 * k + 1 : ℕ) * ((((2 * k).factorial : ℝ) * (2 * k : ℕ))⁻¹) := by
  have h := Complex.exp_bound (x := Complex.I) (by simp) hk
  rw [sum_exp_I] at h
  simp only [Complex.norm_I, one_pow, one_mul] at h
  have he : Complex.exp Complex.I = (Real.cos 1 : ℂ) + (Real.sin 1 : ℂ) * Complex.I := by
    have := Complex.exp_mul_I 1
    simpa using this
  rw [he] at h
  have hr := (Complex.abs_re_le_norm _).trans h
  have hi := (Complex.abs_im_le_norm _).trans h
  simp only [Complex.sub_re, Complex.sub_im, Complex.add_re, Complex.add_im, Complex.mul_re, Complex.mul_im, Complex.ofReal_re, Complex.ofReal_im, Complex.I_re, Complex.I_im] at hr hi
  constructor
  · simpa using hr
  · simpa using hi

/-- `cos 1`, scaled by `2^200` and cut to an integer. -/
def cosOne : ℤ := 868232330700371202471720823065555340568207867417093696894962

/-- `sin 1`, scaled by `2^200` and cut to an integer. -/
def sinOne : ℤ := 1352191738627887730370568382426388711294672994500390224088559

/-- The pair of scaled cosine and sine one radian on. -/
def turnOne (q : ℤ × ℤ) : ℤ × ℤ :=
  ((q.1 * cosOne - q.2 * sinOne) / 2 ^ 200, (q.2 * cosOne + q.1 * sinOne) / 2 ^ 200)

/-- Scaled cosine and sine of `n + 1`. -/
def turned : ℕ → ℤ × ℤ
  | 0 => (cosOne, sinOne)
  | n + 1 => turnOne (turned n)

theorem base_close : |Real.cos 1 * 2 ^ 200 - cosOne| ≤ 2 ∧ |Real.sin 1 * 2 ^ 200 - sinOne| ≤ 2 := by
  obtain ⟨hc, hs⟩ := one_close 30 (by norm_num)
  rw [abs_le] at hc hs
  constructor <;> rw [abs_le]
  · simp only [Finset.sum_range_succ, Finset.sum_range_zero, cosOne] at hc ⊢
    norm_num [Nat.factorial] at hc ⊢
    constructor <;> linarith [hc.1, hc.2]
  · simp only [Finset.sum_range_succ, Finset.sum_range_zero, sinOne] at hs ⊢
    norm_num [Nat.factorial] at hs ⊢
    constructor <;> linarith [hs.1, hs.2]

/-- Cutting the quotient by the scale to an integer costs at most 1. -/
theorem div_close (a : ℤ) : |(a : ℝ) / 2 ^ 200 - ((a / 2 ^ 200 : ℤ) : ℝ)| ≤ 1 := by
  have h1 := Int.emod_add_mul_ediv a (2 ^ 200)
  have h2 := Int.emod_nonneg a (b := 2 ^ 200) (by norm_num)
  have h3 := Int.emod_lt_of_pos a (b := 2 ^ 200) (by norm_num)
  generalize a / 2 ^ 200 = q at *
  generalize a % 2 ^ 200 = r at *
  have h1' : (r : ℝ) + 2 ^ 200 * q = a := by exact_mod_cast h1
  have h2' : (0 : ℝ) ≤ r := by exact_mod_cast h2
  have h3' : (r : ℝ) < 2 ^ 200 := by exact_mod_cast h3
  rw [← h1', add_div, mul_div_cancel_left₀ _ (by norm_num), add_sub_cancel_right, abs_of_nonneg (by positivity)]
  rw [div_le_one (by norm_num)]
  exact h3'.le

/-- One coordinate of the addition formula, with errors, at the scale `m`. -/
theorem mul_close {m x a u b e : ℝ} (hm : 0 < m) (hx : |x| ≤ 1) (hb : |b| ≤ m) (h1 : |u * m - b| ≤ 2)
    (he : |x * m - a| ≤ e) : |x * u * m - a * b / m| ≤ e + 2 := by
  have hs : x * u * m - a * b / m = x * (u * m - b) + (x * m - a) * (b / m) := by
    field_simp; ring
  have hb' : |b / m| ≤ 1 := by
    rw [abs_div, abs_of_pos hm]
    exact (div_le_one hm).mpr hb
  have h2 : |x * (u * m - b)| ≤ 1 * 2 := by
    rw [abs_mul]; exact mul_le_mul hx h1 (abs_nonneg _) (by norm_num)
  have h3 : |(x * m - a) * (b / m)| ≤ e * 1 := by
    rw [abs_mul]; exact mul_le_mul he hb' (abs_nonneg _) ((abs_nonneg _).trans he)
  calc _ = _ := congrArg _ hs
    _ ≤ _ := abs_add_le _ _
    _ ≤ e + 2 := by linarith only [h2, h3]

/-- The error of the approximation at `n + 1` radians, in units of the scale. -/
theorem turned_close (n : ℕ) :
    |Real.cos (n + 1) * 2 ^ 200 - (turned n).1| ≤ 5 ^ (n + 1) ∧
      |Real.sin (n + 1) * 2 ^ 200 - (turned n).2| ≤ 5 ^ (n + 1) := by
  obtain ⟨hc1, hs1⟩ := base_close
  have hbc : |(cosOne : ℝ)| ≤ 2 ^ 200 := by norm_num [cosOne, abs_le]
  have hbs : |(sinOne : ℝ)| ≤ 2 ^ 200 := by norm_num [sinOne, abs_le]
  induction n with
  | zero =>
    rw [Nat.cast_zero, zero_add, zero_add, pow_one]
    exact ⟨le_trans hc1 (by norm_num), le_trans hs1 (by norm_num)⟩
  | succ n ih =>
    have hc := Real.abs_cos_le_one (n + 1 : ℝ)
    have hs := Real.abs_sin_le_one (n + 1 : ℝ)
    have hp : (5 : ℝ) ≤ 5 ^ (n + 1) := by
      have : (1 : ℝ) ≤ 5 ^ n := one_le_pow₀ (by norm_num)
      rw [pow_succ]; linarith
    have hm : (0 : ℝ) < 2 ^ 200 := by norm_num
    have hcc := mul_close hm hc hbc hc1 ih.1
    have hss := mul_close hm hs hbs hs1 ih.2
    have hsc := mul_close hm hs hbc hc1 ih.2
    have hcs := mul_close hm hc hbs hs1 ih.1
    have hd1 := div_close ((turned n).1 * cosOne - (turned n).2 * sinOne)
    have hd2 := div_close ((turned n).2 * cosOne + (turned n).1 * sinOne)
    have hpow : (5 : ℝ) ^ (n + 1 + 1) = 5 * 5 ^ (n + 1) := by ring
    have hq : turned (n + 1) = (((turned n).1 * cosOne - (turned n).2 * sinOne) / 2 ^ 200,
      ((turned n).2 * cosOne + (turned n).1 * sinOne) / 2 ^ 200) := rfl
    rw [hq, hpow, Nat.cast_succ, Real.cos_add (n + 1 : ℝ) 1, Real.sin_add (n + 1 : ℝ) 1]
    dsimp only
    generalize ((turned n).1 * cosOne - (turned n).2 * sinOne) / 2 ^ 200 = q1 at hd1 ⊢
    generalize ((turned n).2 * cosOne + (turned n).1 * sinOne) / 2 ^ 200 = q2 at hd2 ⊢
    push_cast at hd1 hd2
    rw [sub_div] at hd1
    rw [add_div] at hd2
    rw [abs_le] at hcc hss hsc hcs hd1 hd2
    generalize (2 : ℝ) ^ 200 = m at *
    constructor <;> rw [abs_le] <;> constructor <;> linarith only [hp, hcc.1, hcc.2, hss.1, hss.2, hsc.1, hsc.2, hcs.1, hcs.2, hd1.1, hd1.2, hd2.1, hd2.2]

/-- An approximation whose error bar holds no multiple of `2^168` gives the floor at the scale `2^32`. -/
theorem floor_of_close {x : ℝ} {a K : ℤ} {e : ℤ} (h : |x * 2 ^ 200 - (a : ℝ)| ≤ (e : ℝ))
    (h1 : K * 2 ^ 168 ≤ |a| - e) (h2 : |a| + e < (K + 1) * 2 ^ 168) : K = ⌊|x| * 2 ^ 32⌋ := by
  have ha : |(|x| * 2 ^ 200) - ((|a| : ℤ) : ℝ)| ≤ (e : ℝ) := by
    have := abs_abs_sub_abs_le (x * 2 ^ 200) (a : ℝ)
    rw [abs_mul, abs_of_pos (by norm_num : (0 : ℝ) < 2 ^ 200)] at this
    push_cast
    exact this.trans h
  have h1' : (K : ℝ) * 2 ^ 168 ≤ ((|a| : ℤ) : ℝ) - (e : ℝ) := by exact_mod_cast h1
  have h2' : ((|a| : ℤ) : ℝ) + (e : ℝ) < ((K : ℝ) + 1) * 2 ^ 168 := by exact_mod_cast h2
  rw [abs_le] at ha
  symm; rw [Int.floor_eq_iff]
  have hs : |x| * 2 ^ 200 = |x| * 2 ^ 32 * 2 ^ 168 := by ring
  rw [hs] at ha
  constructor
  · have : (K : ℝ) * 2 ^ 168 ≤ |x| * 2 ^ 32 * 2 ^ 168 := by linarith [ha.1]
    exact le_of_mul_le_mul_right this (by norm_num)
  · have : |x| * 2 ^ 32 * 2 ^ 168 < ((K : ℝ) + 1) * 2 ^ 168 := by linarith [ha.2]
    exact lt_of_mul_lt_mul_right this (by norm_num)

end Sys2Proof.Laws
end

