-- ==== Sys2Proof/Tests/Slice0.lean ====
section
/-! SUPPORT. The package's own tests: decoding of words written out from the spec's encodings, the WellFormed
smoke, at most two steps per instruction with expected results from spec/95_test_vectors.md, and a witness for
the hypotheses of every obligation that has any. -/

namespace Sys2Proof.Tests

open Sys2Proof Sys2Proof.Machine

/-- A state in ACTIVE right after INIT. -/
def active : State := { State.reset with phase := .active, ctx := Ctx.initial }

/-- `s` with a command pending. -/
def withPending (op : Op) (n : Fin 5) (v : Word) (s : State) : State :=
  { s with pending := some { op := op, n := n, snap := v } }

/-- `active` after `n` bytes 'a'. -/
def fed (n : Nat) : State := { active with ctx := absorb Ctx.initial (List.replicate n 0x61) }

/-! ### WellFormed -/

theorem test_wf_refuses_count_5 : Instr.wellFormed (.update 5) = false := by decide
theorem test_wf_admits_count_4 : Instr.wellFormed (.update 4) = true := by decide

/-! ### Decode: words written out bit by bit from 30 R80, R81, R86 -/

theorem test_decode_init : decodeCmd 0b00000000000000000000000000000001 = .ok .init := by decide
theorem test_decode_update_3 : decodeCmd 0b00000000000000000000000000110010 = .ok (.update 3) := by decide
theorem test_decode_final : decodeCmd 0b00000000000000000000000000000011 = .ok .final := by decide
theorem test_decode_stepF : decodeStep 0b000101 = .stepF 5 := by decide
theorem test_decode_stepG : decodeStep 0b011010 = .stepG 10 := by decide
theorem test_decode_stepH : decodeStep 0b101111 = .stepH 15 := by decide
theorem test_decode_stepI : decodeStep 0b110001 = .stepI 1 := by decide
/-- 95 section 6, E5, E6, E8, E9. -/
theorem test_decode_illegal :
    decodeCmd 0x52 = .error .countTooLarge ∧ decodeCmd 0x13 = .error .operandBitsNotZero ∧
      decodeCmd 0x04 = .error .reservedOpcode ∧ decodeCmd 0x82 = .error .reservedBitsNotZero := by decide

/-! ### The round processor and the transform: 95 sections 2 and 3 -/

theorem test_mixing :
    mixF 0x12345678 0x9abcdef0 0x0fedcba9 = 0x1ffddff1 ∧ mixG 0x12345678 0x9abcdef0 0x0fedcba9 = 0x92345678 ∧
      mixH 0x12345678 0x9abcdef0 0x0fedcba9 = 0x87654321 ∧ mixI 0x12345678 0x9abcdef0 0x0fedcba9 = 0x688aa88e := by
  decide
theorem test_rotl : rotl32 0x12345678 23 = 0x3c091a2b ∧ rotl32 0x80000001 7 = 0x000000c0 := by decide

/-- A transform of the padded "abc" block under way, about to do step `i` from the words `q`. -/
def abcAt (i : BitVec 6) (q : Quad) : State :=
  { State.reset with
    seq := some i
    work :=
      { cur := q, saved := Ctx.initial.state
        m := #v[0x80636261, 0, 0, 0, 0, 0, 0, 0, 0, 0, 0, 0, 0, 0, 0x18, 0] } }

/-- 95 section 3.1, step 0. -/
theorem test_stepF_0 :
    (nextOf (step (abcAt 0 Ctx.initial.state))).map (·.work.cur) =
      some { a := 0x10325476, b := 0xd6d117b4, c := 0xefcdab89, d := 0x98badcfe } := by decide +kernel
/-- 95 section 3.1, step 25 (it reads M[14]). -/
theorem test_stepG_25 :
    (nextOf (step (abcAt 25 { a := 0x6d002f1e, b := 0xb7f268cf, c := 0x47092c07, d := 0xabfc7920 }))).map (·.work.cur) =
      some { a := 0xabfc7920, b := 0x09388eff, c := 0xb7f268cf, d := 0x47092c07 } := by decide +kernel
/-- 95 section 3.1, step 41 (it reads M[0]). -/
theorem test_stepH_41 :
    (nextOf (step (abcAt 41 { a := 0x6e7429d5, b := 0x11de1779, c := 0x5a2f5ea5, d := 0x3575227e }))).map (·.work.cur) =
      some { a := 0x3575227e, b := 0xfadcaa38, c := 0x11de1779, d := 0x5a2f5ea5 } := by decide +kernel
/-- 95 section 3.1, step 63 and the feed-forward. -/
theorem test_stepI_63 :
    (nextOf (step (abcAt 63 { a := 0x7327d604, b := 0xe484b9d8, c := 0x624d8cb2, d := 0x310ade8f }))).map
        (fun t => (t.ctx.state, t.seq)) =
      some ({ a := 0x98500190, b := 0xb04fd23c, c := 0x7d3f96d6, d := 0x727fe128 }, none) := by decide +kernel
/-- 95 section 3.2, the all-zero block from the all-zero state. -/
theorem test_transform_zero :
    transform Quad.zero Block.zero = { a := 0xf7cd1c97, b := 0xa5483681, c := 0x2b68d832, d := 0xf90ca639 } := by
  decide +kernel

/-! ### The commands: 95 sections 4, 5 and 6 -/

/-- 95 E12: after INIT is performed in DONE, DIGEST and DVALID are cleared and PHASE is ACTIVE. -/
theorem test_init_performed :
    (nextOf (step (withPending .init 0 0 { State.reset with phase := .done, dvalid := true, digest := Ctx.initial.state }))).map
      (fun t => (t.statusWord, t.digest, t.ctx.state)) = some (0x00000004, Quad.zero, Ctx.initial.state) := by decide
/-- 95 A2: the block completes, two bytes are left over and the stale ones stay. -/
theorem test_update_completes_block :
    (nextOf (exec (.update 4) (withPending .update 4 0x7a797877 (fed 62)))).map
        (fun t => (t.ctx.state.a, t.ctx.fill, t.ctx.buf.get 0, t.ctx.buf.get 2, t.ctx.buf.get 63)) =
      some (0xe46f2cca, 2, 0x79, 0x61, 0x78) := by decide +kernel
/-- 95 P2: after UPDATE 3 of "abc" the fill is 3, and DIN lane 3 is ignored. -/
theorem test_update_3 :
    (nextOf (exec (.update 3) (withPending .update 3 0xff636261 active))).map
        (fun t => (t.statusWord, t.ctx.buf.get 0, t.ctx.buf.get 2, t.ctx.buf.get 3)) =
      some (0x00000034, 0x61, 0x63, 0x00) := by decide +kernel
/-- 95 S1: FINAL on the empty message. -/
theorem test_final_empty :
    (nextOf (exec .final (withPending .final 0 0 active))).map (fun t => (t.digest, t.statusWord, t.ctx)) =
      some ({ a := 0xd98c1dd4, b := 0x04b2008f, c := 0x980980e9, d := 0x7e42f8ec }, 0x0000000a, Ctx.zero) := by
  decide +kernel
/-- 95 section 5.2, n = 56: two transforms in FINAL. -/
theorem test_final_56 :
    (nextOf (exec .final (withPending .final 0 0 (fed 56)))).map (·.digest) =
      some { a := 0xc78a0c3b, b := 0xb028f803, c := 0x70196c4c, d := 0x1872d106 } := by decide +kernel

/-! ### The command level: 95 section 6 -/

/-- 95 E2, E4, E7. -/
theorem test_command_errors :
    (nextOf (busWrite 0x00 4 0x00000002 State.reset)).map (·.statusWord) = some 0x00010000 ∧
      (nextOf (busWrite 0x00 4 0x00000003 (withPending .init 0 0 State.reset))).map (·.statusWord) = some 0x00020001 ∧
      (nextOf (busWrite 0x00 4 0x00000000 active)).map (·.statusWord) = some 0x00040004 := by decide
/-- 95 E13, E14, E15, E16. -/
theorem test_access_errors :
    (busRead 0x00 4 active).1 = 0 ∧ (busRead 0x00 4 active).2.err.access = true ∧
      (nextOf (busWrite 0x10 4 5 active)).map (·.err.access) = some true ∧
      (busRead 0x0C 4 active).2.err.access = true ∧ (busRead 0x02 4 active).2.err.access = true ∧
      (nextOf (busWrite 0x00 2 1 active)).map (fun t => (t.err.access, t.busy)) = some (true, false) := by decide
/-- 95 E17. -/
theorem test_status_write :
    (nextOf (busWrite 0x08 4 0x00050000 { State.reset with err := { misuse := true, busy := true, cmd := true, access := true } })).map
      (·.statusWord) = some 0x000a0000 := by decide
/-- An address outside the window stops the run (93 U10); the last byte of the window does not. -/
theorem test_window_edge :
    nextOf (hostAct (.read 0x40 4) State.reset) = none ∧
      (nextOf (hostAct (.read 0x3F 4) State.reset)).map (·.err.access) = some true := by decide
/-- What the next step runs after `withFetchWord` at reset: INIT is performed, UPDATE raises ERR_MISUSE. -/
theorem test_fetch_words :
    (nextOf (step (State.reset.withFetchWord 32 0x01))).map (·.ctx.state.a) = some 0x67452301 ∧
      (nextOf (step (State.reset.withFetchWord 32 0x12))).map (·.statusWord) = some 0x00010000 ∧
      (nextOf (step (State.reset.withFetchWord 8 0x20))).map (·.seq) = some (some 33) := by decide

/-- 30 R88 and the STATUS values of 95 P1: WAIT on a pending INIT, with a turn of the host first, reads BUSY = 1 and
goes on; after the engine's turn it reads 0x00000004 and ends. -/
theorem test_wait_polls :
    (nextOf (step { withPending .init 0 0 State.reset with host := [.wait], turns := [.host] })).map
        (fun t => (t.reads, t.host)) = some ([0x00000001], [.wait]) ∧
      (nextOf (step { active with host := [.wait] })).map (fun t => (t.reads, t.host)) = some ([0x00000004], []) := by
  decide

/-- 95 P3, chunk 1 and the last chunk: the expansion of FEED into DIN and CMD writes. -/
theorem test_listing_feed :
    lstFeed 0x40 [0x54, 0x68, 0x65, 0x20, 0x64, 0x6f, 0x67] =
      [.write 0x44 4 0x20656854, .write 0x40 4 0x00000042, .wait, .write 0x44 4 0x00676f64, .write 0x40 4 0x00000032,
        .wait] := by decide
/-- 30 R88, DIGEST and CLRERR. -/
theorem test_listing_digest :
    lstDigest 0 = [.write 0 4 0x00000003, .wait, .read 0x10 4, .read 0x14 4, .read 0x18 4, .read 0x1C 4] ∧
      lstClrErr 0 = .write 0x08 4 0x000F0000 := by decide

/-! ### Witnesses: states and operands that meet the hypotheses of each obligation -/

/-- Two idle instances with windows at 0x40 and 0x80. -/
def two : System := System.reset [0x40, 0x80]

theorem inv_reset : State.reset.Inv :=
  ⟨rfl, rfl, rfl, by decide, fun _ => rfl, fun _ => rfl, (by intro p h; exact nomatch h),
    (by intro p h; exact nomatch h)⟩
theorem inv_init_pending : (withPending .init 0 0 State.reset).Inv :=
  ⟨rfl, rfl, rfl, by decide, fun _ => rfl, fun _ => rfl, (by intro p h; cases h; intro h; exact absurd rfl h),
    (by intro p h; cases h; intro _; rfl)⟩

theorem witness_DecodeOfEncodeIsTheInstruction :
    Instr.wellFormed (.update 0) ∧ Instr.wellFormed (.update 4) ∧ Instr.wellFormed (.stepI 15) := by decide
theorem witness_IllegalWordRaisesErrCmd :
    State.reset.pending = none ∧ (0x52 : Word) ∉ commandWords.map (·.1) ∧ (0x42 : Word) ∈ commandWords.map (·.1) := by
  decide
theorem witness_StepRunsThePendingCommand :
    ∃ s t u v : State, s.pending = some ⟨.init, 0, 0⟩ ∧ s.host = [] ∧
      t.pending = some ⟨.init, 0, 0⟩ ∧ t.host ≠ [] ∧ t.turns = .engine :: [] ∧
      u.pending = some ⟨.init, 0, 0⟩ ∧ u.host ≠ [] ∧ u.turns = .host :: [] ∧
      v.pending = some ⟨.init, 0, 0⟩ ∧ v.host ≠ [] ∧ v.turns = [] ∧ s.seq = none ∧ t.seq = none ∧ u.seq = none ∧
      v.seq = none :=
  ⟨withPending .init 0 0 State.reset, { withPending .init 0 0 State.reset with host := [.reset], turns := [.engine] },
    { withPending .init 0 0 State.reset with host := [.reset], turns := [.host] },
    { withPending .init 0 0 State.reset with host := [.reset] }, by decide⟩
theorem witness_StepRunsTheWrittenCommand :
    ∃ s : State, s.seq = none ∧ s.pending = none ∧ s.base % 64 = 0 ∧ s.host = .write s.base 4 0x42 :: [] ∧
      decodeCmd 0x42 = .ok (.update 4) :=
  ⟨{ active with host := [.write 0 4 0x42] }, by decide⟩
theorem witness_StepRunsTheIssuedStep :
    (abcAt 62 Quad.zero).seq = some 62 ∧ (62 : BitVec 6).toNat < 63 ∧ (abcAt 63 Quad.zero).seq = some 63 ∧
      (63 : BitVec 6).toNat = 63 := by decide
theorem witness_PlacedWordRunsNext :
    decodeCmd 0x01 = .ok .init ∧ decodeCmd 0x42 = .ok (.update 4) ∧ active.phase = .active := by decide
theorem witness_PendingCommandIsPerformed :
    (withPending .final 0 0 active).seq = none ∧
      (withPending .final 0 0 active).pending = some ⟨.final, 0, 0⟩ := by decide
theorem witness_NextCommandWriteMayFindBusyOrIdle :
    ∃ s t : State, s.seq = none ∧ s.pending = some ⟨.init, 0, 0⟩ ∧ s.host = .write s.base 4 3 :: [] ∧
      s.turns = .host :: [] ∧ t.seq = none ∧ t.pending = some ⟨.init, 0, 0⟩ ∧ t.host = .write t.base 4 3 :: [] ∧
      t.turns = .engine :: [] :=
  ⟨{ withPending .init 0 0 State.reset with host := [.write 0 4 3], turns := [.host] },
    { withPending .init 0 0 State.reset with host := [.write 0 4 3], turns := [.engine] }, by decide⟩
theorem witness_WaitEndsWhenNotBusy :
    ∃ s t u : State, s.seq = none ∧ s.host = .wait :: [] ∧ s.pending = some ⟨.init, 0, 0⟩ ∧ s.turns = .host :: [] ∧
      t.seq = none ∧ t.host = .wait :: [] ∧ t.pending = some ⟨.init, 0, 0⟩ ∧ t.turns = .engine :: [] ∧
      u.seq = none ∧ u.host = .wait :: [] ∧ u.pending = none :=
  ⟨{ withPending .init 0 0 State.reset with host := [.wait], turns := [.host] },
    { withPending .init 0 0 State.reset with host := [.wait], turns := [.engine] },
    { State.reset with host := [.wait] }, by decide⟩
theorem witness_WaitLoopEndsInTheFirstNotBusyRead :
    ∃ s t : State, s.seq = none ∧ s.host = .wait :: [] ∧ s.pending = some ⟨.init, 0, 0⟩ ∧
      t.seq = none ∧ t.host = .wait :: [] ∧ t.pending = none :=
  ⟨{ withPending .init 0 0 State.reset with host := [.wait] }, { State.reset with host := [.wait] }, by decide⟩
theorem witness_ResetMeetsTheInvariant : 0x40 % 64 = 0 := by decide
theorem witness_StepKeepsTheInvariant :
    (withPending .init 0 0 State.reset).Inv ∧ ∃ t, step (withPending .init 0 0 State.reset) = .next t :=
  ⟨inv_init_pending, _, rfl⟩
theorem witness_AccessReachesItsOffset : 0 < 64 ∧ 63 < 64 := by decide
theorem witness_DinAndDigestAccess : State.reset.Inv ∧ State.reset.dvalid = false := ⟨inv_reset, rfl⟩
theorem witness_DinWriteLeavesThePendingCommand : (withPending .update 4 7 active).pending = some ⟨.update, 4, 7⟩ := rfl
theorem witness_IllegalAccessRaisesErrAccess :
    readIllegal 0x00 4 ∧ ¬ readIllegal 0x04 4 ∧ readIllegal 0x0C 4 ∧ ¬ readIllegal 0x1C 4 ∧ readIllegal 0x20 4 ∧
      readIllegal 0x3F 4 ∧ readIllegal 0x04 2 ∧ ¬ writeIllegal 0x00 4 ∧ ¬ writeIllegal 0x08 4 ∧ writeIllegal 0x0C 4 ∧
      writeIllegal 0x10 4 ∧ writeIllegal 0x3C 4 ∧ writeIllegal 0x02 4 := by
  unfold readIllegal writeIllegal; omega
theorem witness_ContextIsHiddenFromReads :
    { Ctx.initial with bitCount := 512 }.fill = State.reset.ctx.fill ∧
      (withPending .init 0 0 State.reset).pending = some ⟨.init, 0, 0⟩ := by decide
theorem witness_CommandWriteChecksAndAccepts :
    (withPending .init 0 0 State.reset).pending ≠ none ∧ State.reset.pending = none ∧
      (0x52 : Word) ∉ commandWords.map (·.1) ∧ (0x03 : Word) ∈ activeWords ∧ State.reset.phase ≠ .active ∧
      ((0x42 : Word), Instr.update 4) ∈ commandWords ∧ active.pending = none ∧ active.phase = .active := by decide
theorem witness_AtMostOneErrorPerAccess :
    (∃ t, hostAct (.read 0x00 4) State.reset = .next t) ∧ (withPending .init 0 0 State.reset).pending ≠ none ∧
      (0x00 : Word) ∉ commandWords.map (·.1) ∧ (0x02 : Word) ∈ activeWords ∧ writeIllegal 0x10 4 :=
  ⟨⟨_, rfl⟩, by decide, by decide, by decide, by unfold writeIllegal; decide⟩
theorem witness_ErrorFlagsAreSticky :
    (∃ t, step { State.reset with host := [.read 0x00 4] } = .next t ∧ t.err.get .access = true) ∧
      ∃ t, step { State.reset.raise .access with host := [.write 0x08 4 0x00080000] } = .next t ∧
        t.err.get .access = false :=
  ⟨⟨_, rfl, rfl⟩, ⟨_, rfl, by decide⟩⟩
theorem witness_InitCreatesAFreshContext :
    State.reset.pending = none ∧ (withPending .init 0 0 State.reset).pending = some ⟨.init, 0, 0⟩ := by decide
theorem witness_UpdateAppendsTheDinBytes :
    (4 : BitVec 3).toNat ≤ 4 ∧ State.reset.pending = none ∧ State.reset.phase ≠ .active ∧ active.phase = .active ∧
      (fed 59).ctx.fill + 4 < 64 ∧ 64 ≤ (fed 60).ctx.fill + 4 := by decide +kernel
theorem witness_UpdateZeroChangesOnlyPending : (withPending .update 0 0 active).pending = some ⟨.update, 0, 0⟩ := rfl
theorem witness_CounterIsTheTwoWordSum : (List.replicate 64 (0x61 : Byte)).length ≤ 64 := by decide
theorem witness_PadCountReachesFiftySix : 55 < 64 ∧ 55 < 56 ∧ 63 < 64 ∧ ¬ 63 < 56 := by decide
theorem witness_FinalPadsExtractsAndWipes :
    State.reset.pending = none ∧ State.reset.phase ≠ .active ∧ active.phase = .active ∧
      (withPending .final 0 0 active).pending = some ⟨.final, 0, 0⟩ ∧ (fed 55).ctx.fill < 56 ∧ ¬ (fed 56).ctx.fill < 56 := by
  decide +kernel
theorem witness_DigestIsKeptUntilInitFinalOrReset : ∃ t, step (withPending .init 0 0 State.reset) = .next t := ⟨_, rfl⟩
theorem witness_StateChangesOnlyByATransform :
    (withPending .update 4 0 (fed 60)).seq = none ∧ (withPending .update 4 0 (fed 60)).phase = .active ∧
      ∃ t, step (withPending .update 4 0 (fed 60)) = .next t :=
  ⟨rfl, rfl, _, by rw [step_of_engine rfl (nextAgent_engine rfl rfl), engineStep_pending rfl, exec_pending rfl]⟩
theorem witness_StreamingEquivalence :
    active.pending = none ∧ active.phase = .active ∧
      chunksBytes [(2, 0x6261)] = chunksBytes [(0, 0), (1, 0xff61), (1, 0x62)] := by decide
theorem witness_ContextAfterFeeding : State.reset.pending = none ∧ chunksBytes [(1, 0x61)] = [0x61] := by decide
theorem witness_DigestOfAnyChunking : State.reset.pending = none := rfl
theorem witness_SixtyFourStepsAreOneTransform :
    ∃ s : State, s.seq = some 0 ∧ s.work.cur = s.ctx.state ∧ s.work.saved = s.ctx.state ∧
      s.work.m = decodeBlock Block.zero :=
  ⟨{ State.reset with seq := some 0, work := { cur := Quad.zero, saved := Quad.zero, m := decodeBlock Block.zero } },
    rfl, rfl, rfl, rfl⟩
theorem witness_InstancesAreIndependent :
    two.wf ∧ (∃ s, two.insts[1]? = some s) ∧ ∃ sys, two.stepAt 1 = .next sys :=
  ⟨⟨by decide, by decide, by decide⟩, ⟨_, rfl⟩, ⟨_, rfl⟩⟩
theorem witness_WindowsDoNotOverlap :
    two.wf ∧ (∃ s, two.insts[1]? = some s ∧ s.offset 0x84 = some 0x04) := by
  refine ⟨⟨by decide, by decide, by decide⟩, _, rfl, rfl⟩

end Sys2Proof.Tests
end

section
/-! PROOFS. The state as the host sees it (10_state.md R30, R42, R43): what a read returns, which host action moves
which error flag, and what reset leaves. -/

namespace Sys2Proof

/-- A legal CMD word is the encoding of what it decodes to (30_encoding.md R82). -/
theorem decodeCmd_encode {w : Word} {i : Instr} (h : decodeCmd w = .ok i) : w = BitVec.ofNat 32 (encode i) := by
  have hw := cmdWord_fields w
  unfold decodeCmd at h
  split_ifs at h with hop hz hop hr hn hop hz <;> obtain rfl := Except.ok.inj h
  · rw [hop, hz.1, hz.2] at hw
    simpa [encode] using hw.symm
  · rw [hop, not_not.mp hr] at hw
    simpa [encode] using hw.symm
  · rw [hop, hz.1, hz.2] at hw
    simpa [encode] using hw.symm

end Sys2Proof

namespace Sys2Proof.Machine

/-- The decoder accepts exactly the seven words of 30_encoding.md R82. -/
theorem decodeCmd_ok_iff_mem (w : Word) (i : Instr) : decodeCmd w = .ok i ↔ (w, i) ∈ commandWords := by
  constructor
  · intro h
    have hupdate : ∀ n : BitVec 3, n.toNat ≤ 4 →
        (BitVec.ofNat 32 (encode (.update n)), Instr.update n) ∈ commandWords := by decide
    rw [decodeCmd_encode h]
    rcases decodeCmd_form h with rfl | ⟨n, hn, rfl⟩ | rfl
    · decide
    · exact hupdate n hn
    · decide
  · have hall : ∀ c ∈ commandWords, decodeCmd c.1 = .ok c.2 := by decide
    exact hall (w, i)

theorem not_mem_commandWords_of_decodeCmd_error {w : Word} {e : CmdError} (h : decodeCmd w = .error e) :
    w ∉ commandWords.map (·.1) := by
  intro hm
  obtain ⟨⟨_, i⟩, hc, rfl⟩ := List.mem_map.mp hm
  have hok := (decodeCmd_ok_iff_mem _ i).mpr hc
  exact nomatch h.symm.trans hok

/-- A legal word other than INIT needs PHASE = ACTIVE (60 R202). -/
theorem mem_activeWords_of_decodeCmd {w : Word} {i : Instr} (h : decodeCmd w = .ok i) (hi : i ≠ .init) :
    w ∈ activeWords := by
  have hall : ∀ c ∈ commandWords, c.2 ≠ .init → c.1 ∈ activeWords := by decide
  exact hall (w, i) ((decodeCmd_ok_iff_mem w i).mp h) hi

theorem accessLegal_iff (off size : Nat) : accessLegal off size = true ↔ size = 4 ∧ off % 4 = 0 := by
  simp [accessLegal, Config.busBytes]

/-- The offsets at which `regAt` finds each register (10 R36). -/
def Reg.LiesAt (off : Nat) : Reg → Prop
  | .cmd => off = 0x00
  | .din => off = 0x04
  | .status => off = 0x08
  | .digest k => off = 0x10 + 4 * k.val
  | .reserved => off % 4 ≠ 0 ∨ off = 0x0C ∨ 0x20 ≤ off

theorem regAt_liesAt (off : Nat) : (regAt off).LiesAt off := by
  unfold regAt
  split_ifs <;> simp only [Reg.LiesAt] <;> omega

/-- A wrong width or alignment is illegal for a read and for a write alike (20 R52, R66). -/
theorem illegal_of_not_accessLegal {off size : Nat} (h : ¬ accessLegal off size = true) :
    readIllegal off size ∧ writeIllegal off size := by
  rw [accessLegal_iff] at h
  unfold readIllegal writeIllegal
  omega

/-! ### What a read returns -/

theorem busRead_value (off size : Nat) (s : State) :
    (busRead off size s).1 = if accessLegal off size then (s.readReg (regAt off)).getD 0 else 0 := by
  unfold busRead
  split
  · cases s.readReg (regAt off) <;> rfl
  · rfl

/-- The registers show the fill and whether a command is pending, and nothing else of the context, the working
state and the pending command. -/
theorem readReg_hides (s : State) (c : Ctx) (w : Work) (p : Option Pending) (r : Reg)
    (hfill : c.fill = s.ctx.fill) (hbusy : p.isSome = s.pending.isSome) :
    State.readReg { s with ctx := c, work := w, pending := p } r = s.readReg r := by
  cases r with
  | status => simp only [State.readReg, State.statusWord, State.busy, hfill, hbusy]
  | _ => rfl

/-- Settles O22: a read's value is a function of what `readReg` shows, and `readReg` hides the rest. -/
theorem contextIsHiddenFromReads : Obligations.ContextIsHiddenFromReads := by
  intro s c w off size hfill
  constructor
  · rw [busRead_value, busRead_value, readReg_hides s c w s.pending _ hfill rfl]
  · intro p q hp
    rw [busRead_value, busRead_value, readReg_hides s c w (some q) _ hfill (by rw [hp]; rfl)]

/-! ### Which host action moves which error flag -/

/-- From `s` to `t`, a flag is set only where the host action `a` is an event that raises it, and cleared only where
`a` is an event that clears it. -/
def FlagsMoveByEvents (a : HostAction) (s t : State) : Prop :=
  ∀ e : ErrorKind, (s.err.get e = false → t.err.get e = true → raises e a s) ∧
    (s.err.get e = true → t.err.get e = false → clears e a s)

theorem FlagsMoveByEvents.of_err_eq (a : HostAction) {s t : State} (h : t.err = s.err) : FlagsMoveByEvents a s t := by
  intro e
  rw [h]
  exact ⟨fun h0 h1 => by simp [h0] at h1, fun h1 h0 => by simp [h1] at h0⟩

theorem FlagsMoveByEvents.of_raise {a : HostAction} {s t : State} {e : ErrorKind} (hr : raises e a s)
    (h : t.err = s.err.set e) : FlagsMoveByEvents a s t := by
  intro e'
  rw [h, ErrFlags.get_set]
  by_cases he : e' = e
  · subst he
    exact ⟨fun _ _ => hr, fun _ h0 => by simp at h0⟩
  · rw [if_neg he]
    exact FlagsMoveByEvents.of_err_eq a (s := s) rfl e'

/-- A STATUS write clears only flags whose bit of the written word is 1 (20 R59). -/
theorem FlagsMoveByEvents.of_clearErrors {addr : Nat} {v : Word} {s : State} (hoff : s.offset addr = some 0x08) :
    FlagsMoveByEvents (.write addr 4 v) s (s.clearErrors v) := by
  intro e
  rw [State.clearErrors_get]
  refine ⟨fun h0 h1 => by simp [h0] at h1, fun h1 h0 => .inr ⟨addr, v, rfl, hoff, ?_⟩⟩
  simpa [h1] using h0

theorem FlagsMoveByEvents.of_reset (s : State) : FlagsMoveByEvents .reset s s.resetEvent := by
  intro e
  refine ⟨fun _ h1 => ?_, fun _ _ => .inl rfl⟩
  cases e <;> exact absurd h1 Bool.false_ne_true

/-- A CMD write sets the flag of its first failing check only (60 R201 to R204). -/
theorem cmdWrite_flags {addr : Nat} {w : Word} {s t : State} (hoff : s.offset addr = some 0x00)
    (h : cmdWrite w s = .next t) : FlagsMoveByEvents (.write addr 4 w) s t := by
  rcases cmdWrite_cases w s with ⟨hb, h'⟩ | ⟨hp, ⟨_, hw⟩, h'⟩ | ⟨hp, i, op, n, hw, hi, -, ⟨ho, hph, h'⟩ | ⟨-, h'⟩⟩ <;>
    obtain rfl := Host.Outcome.next.inj (h'.symm.trans h)
  · have hp : s.pending ≠ none := by
      obtain ⟨p, hp⟩ := (busy_iff s).mp hb
      exact hp ▸ Option.some_ne_none p
    exact .of_raise (e := .busy) ⟨addr, w, rfl, hoff, hp⟩ rfl
  · exact .of_raise (e := .cmd) ⟨addr, w, rfl, hoff, hp, not_mem_commandWords_of_decodeCmd_error hw⟩ rfl
  · have hne : i ≠ .init := by
      subst hi
      cases op with
      | init => exact absurd rfl ho
      | update => exact nofun
      | final => exact nofun
    exact .of_raise (e := .misuse) ⟨addr, w, rfl, hoff, hp, mem_activeWords_of_decodeCmd hw hne, hph⟩ rfl
  · exact .of_err_eq _ rfl

theorem busWrite_flags {addr off size : Nat} {v : Word} {s t : State} (hoff : s.offset addr = some off)
    (h : busWrite off size v s = .next t) : FlagsMoveByEvents (.write addr size v) s t := by
  have haccess : writeIllegal off size → FlagsMoveByEvents (.write addr size v) s (s.raise .access) := fun hi =>
    .of_raise (e := .access) (.inr ⟨addr, size, v, off, rfl, hoff, hi⟩) rfl
  unfold busWrite at h
  split at h
  · next hl =>
    obtain ⟨rfl, -⟩ := (accessLegal_iff off size).mp hl
    have hlies := regAt_liesAt off
    cases hreg : regAt off <;> rw [hreg] at h hlies <;> simp only [Reg.LiesAt] at h hlies
    case cmd => subst hlies; exact cmdWrite_flags hoff h
    case din => obtain rfl := Host.Outcome.next.inj h; exact .of_err_eq _ rfl
    case status => obtain rfl := Host.Outcome.next.inj h; subst hlies; exact .of_clearErrors hoff
    case digest k =>
      obtain rfl := Host.Outcome.next.inj h
      exact haccess (by unfold writeIllegal; omega)
    case reserved =>
      obtain rfl := Host.Outcome.next.inj h
      exact haccess (by unfold writeIllegal; omega)
  · next hl =>
    obtain rfl := Host.Outcome.next.inj h
    exact haccess (illegal_of_not_accessLegal hl).2

/-- A read that returns no register's value is one of the illegal reads of 60 R205. -/
theorem readIllegal_of_readReg_none {off : Nat} {s : State} (size : Nat) (h : s.readReg (regAt off) = none) :
    readIllegal off size := by
  have hlies := regAt_liesAt off
  unfold readIllegal
  cases hreg : regAt off <;> rw [hreg] at h hlies <;> simp only [Reg.LiesAt] at hlies
  case cmd => exact .inr (.inr (.inl hlies))
  case reserved => omega
  all_goals exact nomatch h

theorem keepRead_flags {addr off : Nat} {s : State} (size : Nat) (hoff : s.offset addr = some off) :
    FlagsMoveByEvents (.read addr size) s (s.keepRead off size) := by
  unfold State.keepRead
  rcases busRead_cases off size s with ⟨-, v, -, hr⟩ | ⟨hl, hr⟩ <;> rw [hr]
  · exact .of_err_eq _ rfl
  · have hi : readIllegal off size := by
      rcases hl with hl | hn
      · exact (illegal_of_not_accessLegal (Bool.eq_false_iff.mp hl)).1
      · exact readIllegal_of_readReg_none size hn
    exact .of_raise (e := .access) (.inl ⟨addr, size, off, rfl, hoff, hi⟩) rfl

theorem hostAct_flags {a : HostAction} {s t : State} (h : hostAct a s = .next t) : FlagsMoveByEvents a s t := by
  cases a with
  | read addr size =>
    simp only [hostAct] at h
    split at h
    · exact nomatch h
    · next off hoff => obtain rfl := Host.Outcome.next.inj h; exact keepRead_flags size hoff
  | write addr size v =>
    simp only [hostAct] at h
    split at h
    · exact nomatch h
    · next off hoff => exact busWrite_flags hoff h
  | wait =>
    obtain rfl := Host.Outcome.next.inj h
    exact .of_err_eq _ (by rw [State.pollStatus_eq])
  | reset =>
    obtain rfl := Host.Outcome.next.inj h
    exact .of_reset s

/-! ### Which step moves an error flag -/

@[simp] theorem State.advanceSeq_err (i : BitVec 6) (s : State) : (s.advanceSeq i).err = s.err := by
  unfold State.advanceSeq; split <;> rfl

@[simp] theorem Pending.perform_err (p : Pending) (s : State) : (p.perform s).err = s.err := by
  unfold Pending.perform
  cases p.op <;> simp only [performInit_err, performUpdate_err, performFinal_err]

/-- Only the host's own action can move an error flag: the sequencer and the engine leave them alone (60 R209). -/
theorem step_err_eq_or_hostAct {s t : State} (h : step s = .next t) :
    t.err = s.err ∨ ∃ a rest ts d, s.host = a :: rest ∧
      hostAct a { s with turns := ts, draws := d, host := rest } = .next t := by
  have hc := step_case s
  generalize step s = r at h hc
  cases hc with
  | sequencer i _ =>
    rw [exec_decodeStep] at h
    obtain rfl := Host.Outcome.next.inj h
    exact .inl (State.advanceSeq_err _ _)
  | engine p ts d _ hp =>
    rw [exec_pending (s := { s with turns := ts, draws := d }) hp] at h
    obtain rfl := Host.Outcome.next.inj h
    exact .inl (Pending.perform_err _ _)
  | host a rest ts d _ hh _ => exact .inr ⟨a, rest, ts, d, hh, h⟩
  | idle => obtain rfl := Host.Outcome.next.inj h; exact .inl rfl

/-- An event depends on BASE, PENDING and PHASE, not on the turns and the accesses still to come. -/
theorem FlagsMoveByEvents.of_schedule {a : HostAction} {s t : State} {rest : List HostAction} {ts : List Agent} {d : Nat}
    (h : FlagsMoveByEvents a { s with turns := ts, draws := d, host := rest } t) : FlagsMoveByEvents a s t := by
  intro e
  cases e <;> exact h _

/-- Settles O25: a step that moves a flag is a host action, and `hostAct_flags` names its event. -/
theorem errorFlagsAreSticky : Obligations.ErrorFlagsAreSticky := by
  intro s t e h
  rcases step_err_eq_or_hostAct h with herr | ⟨a, rest, ts, d, hh, ha⟩
  · rw [herr]
    exact ⟨fun h0 h1 => by simp [h0] at h1, fun h1 h0 => by simp [h1] at h0⟩
  · obtain ⟨hset, hclear⟩ := (hostAct_flags ha).of_schedule e
    exact ⟨fun h0 h1 => ⟨a, rest, hh, hset h0 h1⟩, fun h1 h0 => ⟨a, rest, hh, hclear h1 h0⟩⟩

/-! ### Reset -/

theorem State.statusWord_resetEvent (s : State) : s.resetEvent.statusWord = 0 := by
  simp [State.statusWord, State.busy, flagBit, Phase.enc, ErrFlags.clear]

/-- Settles O13: the fields are those of `resetAt`, and the reads show STATUS, DIN and DIGEST at 0. -/
theorem resetSetsEveryElement : Obligations.ResetSetsEveryElement := by
  intro s
  have hstatus : (busRead 0x08 4 s.resetEvent).1 = 0 := State.statusWord_resetEvent s
  exact ⟨s.resetEvent, rfl, rfl, rfl, fun j _ => Block.zero_get j, rfl, rfl, rfl, rfl, rfl, rfl, hstatus,
    rfl, rfl, rfl, rfl, rfl⟩

end Sys2Proof.Machine
end

section
/-! PROOFS. The register window (20_memory.md R52 to R65): which accesses are legal, the accesses of DIN, STATUS and
DIGESTk, and the byte order of the block, the length field and the digest. -/

namespace Sys2Proof.Machine

/-! ### Legal and illegal accesses -/

/-- An aligned 32-bit read of a readable register returns it and changes nothing. -/
theorem busRead_of_readReg {off : Nat} {v : Word} {s : State} (ha : off % 4 = 0) (h : s.readReg (regAt off) = some v) :
    busRead off 4 s = (v, s) := by
  have hl : accessLegal off 4 = true := (accessLegal_iff off 4).mpr ⟨rfl, ha⟩
  unfold busRead
  rw [if_pos hl, h]

/-- What 60 R205 lists as illegal for a read returns 0 and raises ERR_ACCESS. -/
theorem busRead_of_readIllegal {off size : Nat} (s : State) (h : readIllegal off size) :
    busRead off size s = (0, s.raise .access) := by
  rcases busRead_cases off size s with ⟨hl, v, hv, -⟩ | ⟨-, hr⟩
  · obtain ⟨rfl, ha⟩ := (accessLegal_iff off size).mp hl
    have hlies := regAt_liesAt off
    unfold readIllegal at h
    generalize regAt off = r at hv hlies
    cases r with
    | cmd => exact nomatch hv
    | reserved => exact nomatch hv
    | _ => simp only [Reg.LiesAt] at hlies; omega
  · exact hr

/-- A read that 60 R205 does not list changes nothing. -/
theorem busRead_state_of_not_readIllegal {off size : Nat} (s : State) (h : ¬ readIllegal off size) :
    (busRead off size s).2 = s := by
  rcases busRead_cases off size s with ⟨-, v, -, hr⟩ | ⟨hl | hn, -⟩
  · rw [hr]
  · exact absurd (illegal_of_not_accessLegal (Bool.eq_false_iff.mp hl)).1 h
  · exact absurd (readIllegal_of_readReg_none size hn) h

/-- What 60 R205 lists as illegal for a write raises ERR_ACCESS and does nothing else. -/
theorem busWrite_of_writeIllegal {off size : Nat} (v : Word) (s : State) (h : writeIllegal off size) :
    busWrite off size v s = .next (s.raise .access) := by
  unfold busWrite
  split
  · next hl =>
    obtain ⟨rfl, ha⟩ := (accessLegal_iff off size).mp hl
    have hlies := regAt_liesAt off
    unfold writeIllegal at h
    generalize regAt off = r at hlies
    cases r with
    | digest _ => rfl
    | reserved => rfl
    | _ => simp only [Reg.LiesAt] at hlies; omega
  · rfl

/-- A CMD write answers a next state in every case of its acceptance (60 R201). -/
theorem cmdWrite_answers (w : Word) (s : State) : ∃ t, cmdWrite w s = .next t := by
  rcases cmdWrite_cases w s with ⟨-, h⟩ | ⟨-, -, h⟩ | ⟨-, _, _, _, -, -, -, ⟨-, -, h⟩ | ⟨-, h⟩⟩ <;>
    exact ⟨_, h⟩

theorem busWrite_answers (off size : Nat) (v : Word) (s : State) : ∃ t, busWrite off size v s = .next t := by
  unfold busWrite
  split
  · cases regAt off with
    | cmd => exact cmdWrite_answers v s
    | _ => exact ⟨_, rfl⟩
  · exact ⟨_, rfl⟩

/-- A write that 60 R205 does not list leaves ERR_ACCESS clear where it was clear. -/
theorem busWrite_access_of_not_writeIllegal {off size : Nat} {v : Word} {s t : State} (hoff : off < 64)
    (h : ¬ writeIllegal off size) (ht : busWrite off size v s = .next t) (hset : t.err.access = true) :
    s.err.access = true := by
  have haddr : s.offset (s.base + off) = some off := by
    simp [State.offset, Config.windowSize, hoff]
  by_contra hclear
  rcases (busWrite_flags haddr ht .access).1 (Bool.eq_false_iff.mpr hclear) hset with
    ⟨_, _, _, ha, -, -⟩ | ⟨_, _, _, off', ha, hoff', hill⟩
  · exact nomatch ha
  · obtain ⟨rfl, rfl, rfl⟩ := HostAction.write.inj ha
    obtain rfl := Option.some.inj (haddr.symm.trans hoff')
    exact h hill

/-! ### The STATUS word -/

/-- A field that starts at bit `lo` of a word. -/
theorem getLsbD_shifted_field (x : Word) (lo : Nat) {i : Nat} (hi : i < 32) :
    (x <<< lo).getLsbD i = (decide (lo ≤ i) && x.getLsbD (i - lo)) := by
  rw [BitVec.getLsbD_shiftLeft, decide_eq_true hi, Bool.true_and, ← decide_not]
  simp only [Nat.not_lt]

theorem flagBit_getLsbD (b : Bool) (k : Nat) {i : Nat} (hi : i < 32) :
    (flagBit b k).getLsbD i = (decide (i = k) && b) := by
  rw [flagBit, getLsbD_shifted_field _ _ hi]
  cases b with
  | false => simp
  | true =>
    have hk : k ≤ i ∧ i - k = 0 ↔ i = k := by omega
    simp [BitVec.getLsbD_one, ← hk]

/-- The encoding of PHASE has two bits. -/
theorem Phase.enc_getLsbD_of_le (p : Phase) {j : Nat} (h : 2 ≤ j) : p.enc.getLsbD j = false := by
  have hp : p.enc.toNat < 2 ^ 2 := by cases p <;> decide
  exact Nat.testBit_lt_two_pow (hp.trans_le (Nat.pow_le_pow_right Nat.two_pos h))

/-- FILL has six bits. -/
theorem Ctx.fill_testBit_of_le (c : Ctx) {j : Nat} (h : 6 ≤ j) : c.fill.testBit j = false :=
  Nat.testBit_lt_two_pow (c.fill_lt.trans_le (Nat.pow_le_pow_right Nat.two_pos h : 2 ^ 6 ≤ 2 ^ j))

/-- Every bit of STATUS, by the fields that can reach it (20 R58). -/
theorem State.statusWord_getLsbD (s : State) {i : Nat} (hi : i < 32) :
    s.statusWord.getLsbD i =
      (decide (i = 19) && s.err.access || decide (i = 18) && s.err.cmd || decide (i = 17) && s.err.busy
        || decide (i = 16) && s.err.misuse || decide (4 ≤ i) && s.ctx.fill.testBit (i - 4)
        || decide (2 ≤ i) && s.phase.enc.getLsbD (i - 2) || decide (i = 1) && s.dvalid
        || decide (i = 0) && s.busy) := by
  have h4 : i - 4 < 32 := by omega
  simp only [State.statusWord, BitVec.getLsbD_or, flagBit_getLsbD _ _ hi, getLsbD_shifted_field _ _ hi,
    BitVec.getLsbD_ofNat, decide_eq_true h4, Bool.true_and]

/-- Each error flag is the STATUS bit its cause code names (60 R206). -/
theorem State.statusWord_error (s : State) (e : ErrorKind) : s.statusWord.getLsbD e.code = s.err.get e := by
  have hcode : e.code < 32 := by cases e <;> decide
  rw [s.statusWord_getLsbD hcode]
  cases e <;> simp [-BitVec.getLsbD_eq_getElem, ErrorKind.code, ErrFlags.get, Phase.enc_getLsbD_of_le,
    Ctx.fill_testBit_of_le]

theorem State.statusWord_dvalid (s : State) : s.statusWord.getLsbD 1 = s.dvalid := by
  rw [s.statusWord_getLsbD (by decide)]
  simp

/-- Only PHASE reaches bits 3:2; the fill lies above and the single bits lie elsewhere. -/
theorem State.statusWord_phase (s : State) : s.statusWord.extractLsb' 2 2 = s.phase.enc.extractLsb' 0 2 := by
  apply BitVec.eq_of_getLsbD_eq
  intro i hi
  simp only [BitVec.getLsbD_extractLsb', hi, decide_true, Bool.true_and]
  rw [s.statusWord_getLsbD (by omega)]
  grind

/-- Only the fill reaches bits 9:4: the encoding of PHASE ends below them. -/
theorem State.statusWord_fill (s : State) : s.statusWord.extractLsb' 4 6 = BitVec.ofNat 6 s.ctx.fill := by
  apply BitVec.eq_of_getLsbD_eq
  intro i hi
  simp only [BitVec.getLsbD_extractLsb', BitVec.getLsbD_ofNat, hi, decide_true, Bool.true_and]
  rw [s.statusWord_getLsbD (by omega)]
  grind [Phase.enc_getLsbD_of_le]

/-- The reserved bits of STATUS, 15:10 and 31:20, are 0. -/
theorem State.statusWord_reserved (s : State) {i : Nat} (h : 10 ≤ i ∧ i < 16 ∨ 20 ≤ i) :
    s.statusWord.getLsbD i = false := by
  by_cases hi : i < 32
  · rw [s.statusWord_getLsbD hi]
    grind [Phase.enc_getLsbD_of_le, Ctx.fill_testBit_of_le]
  · exact BitVec.getLsbD_of_ge _ _ (by omega)

/-- A field of reserved bits is 0. -/
theorem State.statusWord_reserved_field (s : State) {lo n : Nat}
    (h : ∀ i < n, 10 ≤ lo + i ∧ lo + i < 16 ∨ 20 ≤ lo + i) :
    s.statusWord.extractLsb' lo n = 0 := by
  apply BitVec.eq_of_getLsbD_eq
  intro i hi
  rw [BitVec.getLsbD_extractLsb', s.statusWord_reserved (h i hi), Bool.and_false]
  exact BitVec.getLsbD_zero.symm

theorem Ctx.fill_eq_div (c : Ctx) : c.fill = c.bitCount.toNat / 8 % 64 := by
  rw [Ctx.fill, Nat.shiftRight_eq_div_pow]

/-- A read of STATUS returns its word and changes nothing. -/
@[simp] theorem busRead_status (s : State) : busRead 0x08 4 s = (s.statusWord, s) :=
  busRead_of_readReg (by decide) rfl

/-- Settles O19: the read returns the STATUS word, and each field is a lemma about that word's bits. -/
theorem statusReadLayout : Obligations.StatusReadLayout := by
  intro s
  refine ⟨s.statusWord, busRead_status s, s.statusWord_busy, s.statusWord_dvalid, ?_, ?_, ?_,
    s.statusWord_error .misuse, s.statusWord_error .busy, s.statusWord_error .cmd, s.statusWord_error .access, ?_⟩
  · rw [s.statusWord_phase]
    cases s.phase <;> rfl
  · rw [s.statusWord_fill, BitVec.toNat_ofNat, Nat.mod_eq_of_lt s.ctx.fill_lt, Ctx.fill_eq_div]
  · exact s.statusWord_reserved_field fun i hi => by omega
  · exact s.statusWord_reserved_field fun i hi => by omega

/-- Settles O21: the accesses 60 R205 lists are exactly those `busRead` and `busWrite` answer with ERR_ACCESS, and
STATUS shows that flag at bit 19. -/
theorem illegalAccessRaisesErrAccess : Obligations.IllegalAccessRaisesErrAccess := by
  intro s off size v hoff
  refine ⟨busRead_of_readIllegal s, busWrite_of_writeIllegal v s, busRead_state_of_not_readIllegal s,
    fun h => ?_, ?_⟩
  · obtain ⟨t, ht⟩ := busWrite_answers off size v s
    exact ⟨t, ht, busWrite_access_of_not_writeIllegal hoff h ht⟩
  · rw [busRead_status]
    exact s.statusWord_error .access

/-- Settles O20: masking a flag with a written 1 is the choice the rule makes for it. -/
theorem statusWriteClearsErrors : Obligations.StatusWriteClearsErrors := by
  intro s v
  have hmask : ∀ f b : Bool, (f && !b) = if b then false else f := by decide
  have hwrite : busWrite 0x08 4 v s = .next (s.clearErrors v) := rfl
  rw [hwrite]
  simp only [State.clearErrors, hmask]

/-! ### DIN and DIGESTk -/

theorem regAt_digest (k : Fin 4) : regAt (0x10 + 4 * k.val) = .digest k := by
  revert k; decide

/-- A read of DIGESTk returns the word and changes nothing. -/
theorem busRead_digest (k : Fin 4) (s : State) : busRead (0x10 + 4 * k.val) 4 s = (s.digest.word k, s) :=
  busRead_of_readReg (by omega) (by rw [regAt_digest]; rfl)

/-- A write of DIGESTk is illegal (20 R60). -/
theorem busWrite_digest (k : Fin 4) (v : Word) (s : State) :
    busWrite (0x10 + 4 * k.val) 4 v s = .next (s.raise .access) :=
  busWrite_of_writeIllegal v s (by unfold writeIllegal; omega)

@[simp] theorem Quad.zero_word (k : Fin 4) : Quad.zero.word k = 0 := by
  revert k; decide

/-- Settles O17: the registers read as they are, and the invariant keeps DIGEST at 0 while DVALID is 0. -/
theorem dinAndDigestAccess : Obligations.DinAndDigestAccess := by
  intro s v
  refine ⟨busRead_of_readReg (by decide) rfl, busRead_digest 0 s, busRead_digest 1 s, busRead_digest 2 s,
    busRead_digest 3 s, fun k => busWrite_digest k v s, fun hinv hdv k => ?_⟩
  rw [busRead_digest, hinv.digestZero hdv, Quad.zero_word]

/-- What a transform leaves does not depend on DIN. -/
theorem State.afterTransforms_withDin (k : Nat) (v : Word) (s : State) :
    State.afterTransforms k { s with din := v } = { s.afterTransforms k with din := v } := by
  unfold State.afterTransforms
  split <;> rfl

/-- The engine's step works on the snapshot, so another DIN passes through it unchanged (60 R201). -/
theorem Pending.perform_withDin (p : Pending) (v : Word) (s : State) :
    p.perform { s with din := v } = { p.perform s with din := v } := by
  unfold Pending.perform
  cases p.op with
  | init => rfl
  | update => exact State.afterTransforms_withDin _ v { s with ctx := absorb s.ctx (lanes p.snap p.n.val) }
  | final => rfl

/-- Settles O18: the pending command's `perform` reads its snapshot and passes DIN through. -/
theorem dinWriteLeavesThePendingCommand : Obligations.DinWriteLeavesThePendingCommand := by
  intro s v
  refine ⟨rfl, fun p hp => ⟨_, exec_pending hp, ?_⟩⟩
  rw [exec_pending (s := { s with din := v }) hp, Pending.perform_withDin]

/-! ### Byte order -/

/-- A byte appended below `x` moves `x` up by 2^8. -/
theorem toNat_append_byte {n : Nat} (x : BitVec n) (b : Byte) : (x ++ b).toNat = x.toNat * 2 ^ 8 + b.toNat := by
  rw [BitVec.toNat_append, ← Nat.shiftLeft_add_eq_or_of_lt b.isLt, Nat.shiftLeft_eq]

/-- LE32 weighs its bytes by the powers of 2^8 (00 R8). -/
theorem le32_toNat (b0 b1 b2 b3 : Byte) :
    (le32 b0 b1 b2 b3).toNat = b0.toNat + b1.toNat * 2 ^ 8 + b2.toNat * 2 ^ 16 + b3.toNat * 2 ^ 24 := by
  simp only [le32, toNat_append_byte]
  omega

theorem decodeBlock_getElem (blk : Block) (j : Fin 16) :
    (decodeBlock blk)[j] =
      le32 (blk.get (4 * j.val)) (blk.get (4 * j.val + 1)) (blk.get (4 * j.val + 2)) (blk.get (4 * j.val + 3)) := by
  simp [decodeBlock]

theorem lengthBytes_getElem? (bits : BitVec 64) {j : Nat} (h : j < 8) :
    (lengthBytes bits)[j]? = some (byteOf bits j) := by
  simp [lengthBytes, h]

theorem Quad.digestByte_eq (q : Quad) (k j : Fin 4) :
    q.digestByte ⟨4 * k.val + j.val, by omega⟩ = byteOf (q.word k) j.val := by
  have hk : (4 * k.val + j.val) / 4 = k.val := by omega
  have hj : (4 * k.val + j.val) % 4 = j.val := by omega
  simp only [Quad.digestByte, hk, hj]

/-- Settles O41: block words weigh their bytes least significant first, and `byteOf` names the bytes of the length
field and of the digest words. -/
theorem internalDataIsLittleEndian : Obligations.InternalDataIsLittleEndian := by
  refine ⟨fun blk j => ?_, fun bits j hj => ⟨lengthBytes_length bits, lengthBytes_getElem? bits hj⟩,
    Quad.digestByte_eq⟩
  rw [decodeBlock_getElem, le32_toNat]

end Sys2Proof.Machine
end

section
/-! PROOFS. The encoding of the CMD words (30_encoding.md R80 to R83): which words are illegal, why, and what a CMD
write does with one. -/

namespace Sys2Proof

/-- The bits 31:4, which must be 0 for INIT and FINAL, are the fields RSV and N (30 R80). -/
theorem operandBits_eq_zero_iff (w : Word) : w.extractLsb' 4 28 = 0 ↔ cmdN w = 0 ∧ cmdRsv w = 0 := by
  simp only [cmdN, cmdRsv, ← BitVec.toNat_inj, BitVec.extractLsb'_toNat, Nat.shiftRight_eq_div_pow,
    BitVec.ofNat_eq_ofNat, BitVec.toNat_ofNat]
  omega

/-- The four reasons a CMD word is illegal, as 30 R83 words them. -/
def CmdError.Explains (w : Word) : CmdError → Prop
  | .reservedOpcode => cmdOp w = 0 ∨ 4 ≤ (cmdOp w).toNat
  | .operandBitsNotZero => (cmdOp w = 1 ∨ cmdOp w = 3) ∧ w.extractLsb' 4 28 ≠ 0
  | .countTooLarge => cmdOp w = 2 ∧ 5 ≤ (cmdN w).toNat
  | .reservedBitsNotZero => cmdOp w = 2 ∧ cmdRsv w ≠ 0

/-- The decoder gives a reason only where R83 has it. -/
theorem CmdError.explains_of_decodeCmd {w : Word} {e : CmdError} (h : decodeCmd w = .error e) : e.Explains w := by
  have hother : ∀ op : BitVec 4, op ≠ 1 → op ≠ 2 → op ≠ 3 → op = 0 ∨ 4 ≤ op.toNat := by decide
  unfold decodeCmd at h
  split_ifs at h with h1 hz h2 hr hn h3 hz <;> obtain rfl := Except.error.inj h
  · exact ⟨.inl h1, mt (operandBits_eq_zero_iff w).mp hz⟩
  · exact ⟨h2, hr⟩
  · exact ⟨h2, hn⟩
  · exact ⟨.inr h3, mt (operandBits_eq_zero_iff w).mp hz⟩
  · exact hother (cmdOp w) h1 h2 h3

/-- Some reason of R83 holds exactly where one of the four does, in the order of the rule. -/
theorem CmdError.exists_explains_iff (w : Word) :
    (∃ e : CmdError, e.Explains w) ↔
      reservedOpcode.Explains w ∨ operandBitsNotZero.Explains w ∨ countTooLarge.Explains w ∨
        reservedBitsNotZero.Explains w := by
  constructor
  · rintro ⟨e, h⟩
    cases e with
    | reservedOpcode => exact .inl h
    | operandBitsNotZero => exact .inr (.inl h)
    | countTooLarge => exact .inr (.inr (.inl h))
    | reservedBitsNotZero => exact .inr (.inr (.inr h))
  · rintro (h | h | h | h) <;> exact ⟨_, h⟩

end Sys2Proof

namespace Sys2Proof.Machine

/-- No reason of R83 holds of a word of R82's table. -/
theorem not_explains_of_mem_commandWords (e : CmdError) : ∀ c ∈ commandWords, ¬ e.Explains c.1 := by
  cases e <;> unfold CmdError.Explains <;> decide

/-- A word outside R82's table is one the decoder rejects. -/
theorem decodeCmd_error_of_not_mem {w : Word} (hw : w ∉ commandWords.map (·.1)) : ∃ e, decodeCmd w = .error e := by
  cases h : decodeCmd w with
  | error e => exact ⟨e, rfl⟩
  | ok i => exact absurd (List.mem_map_of_mem ((decodeCmd_ok_iff_mem w i).mp h)) hw

/-- The words outside R82's table are those R83 has a reason for. -/
theorem not_mem_commandWords_iff_explains (w : Word) :
    w ∉ commandWords.map (·.1) ↔ ∃ e : CmdError, e.Explains w := by
  constructor
  · intro hw
    obtain ⟨e, he⟩ := decodeCmd_error_of_not_mem hw
    exact ⟨e, CmdError.explains_of_decodeCmd he⟩
  · rintro ⟨e, he⟩ hw
    obtain ⟨c, hc, rfl⟩ := List.mem_map.mp hw
    exact not_explains_of_mem_commandWords e c hc he

/-- A CMD write of an illegal word on an idle instance raises ERR_CMD and does nothing else (60 R204). -/
theorem cmdWrite_of_decodeCmd_error {w : Word} {e : CmdError} {s : State} (hp : s.pending = none)
    (h : decodeCmd w = .error e) : cmdWrite w s = .next (s.raise .cmd) := by
  rcases cmdWrite_cases w s with ⟨hb, -⟩ | ⟨-, -, hw⟩ | ⟨-, i, -, -, hi, -⟩
  · simp [State.busy, hp] at hb
  · exact hw
  · exact nomatch h.symm.trans hi

/-- Settles O4: an illegal word is one the decoder rejects, and its reasons are R83's. -/
theorem illegalWordRaisesErrCmd : Obligations.IllegalWordRaisesErrCmd := by
  intro w s
  constructor
  · intro hp hw
    obtain ⟨e, he⟩ := decodeCmd_error_of_not_mem hw
    exact cmdWrite_of_decodeCmd_error hp he
  · exact (not_mem_commandWords_iff_explains w).trans ((CmdError.exists_explains_iff w).trans or_assoc)

end Sys2Proof.Machine
end

section
/-! PROOFS. The operations on a context (40_context_ops.md R110 to R113): the two transitions of INIT and UPDATE, the
bytes Absorb writes where the data completes at most one block, and the counter as two words. -/

namespace Sys2Proof.Machine

/-! ### Acceptance and performance of INIT and UPDATE -/

/-- INIT, and every command in ACTIVE, becomes the pending command (60 R201). -/
theorem accept_of_admitted {op : Op} {s : State} (n : Fin 5) (h : op = .init ∨ s.phase = .active) :
    accept op n s = { s with pending := some { op := op, n := n, snap := s.din } } := by
  rcases accept_cases op n s with ⟨-, ha⟩ | ⟨ho, hp, -⟩
  · exact ha
  · exact absurd h (not_or.mpr ⟨ho, hp⟩)

/-- Any command but INIT is dropped outside ACTIVE with ERR_MISUSE (60 R202). -/
theorem accept_of_not_active {op : Op} {s : State} (n : Fin 5) (ho : op ≠ .init) (hp : s.phase ≠ .active) :
    accept op n s = s.raise .misuse :=
  if_pos ⟨ho, hp⟩

theorem exec_init (s : State) : exec .init s = runCommand .init 0 (fun _ => performInit) s := rfl

theorem exec_update {n : BitVec 3} (h : n.toNat < 5) (s : State) :
    exec (.update n) s = runCommand .update ⟨n.toNat, h⟩ (performUpdate n.toNat) s :=
  execUpdate_of_lt h s

/-- The word of UPDATE n (30_encoding.md R81). -/
theorem decodeCmd_update {n : BitVec 3} (hn : n.toNat ≤ 4) :
    decodeCmd (BitVec.ofNat 32 (16 * n.toNat + 2)) = .ok (.update n) := by
  have htable : ∀ m : BitVec 3, m.toNat ≤ 4 →
      (BitVec.ofNat 32 (16 * m.toNat + 2), Instr.update m) ∈ commandWords := by decide
  exact (decodeCmd_ok_iff_mem _ _).mpr (htable n hn)

/-- UPDATE's performance changes the context, and beyond it at most the working state and the draw counter. -/
theorem performUpdate_frame (n : Nat) (v : Word) (s : State) :
    performUpdate n v s =
      { s with
        ctx := absorb s.ctx (lanes v n)
        work := (performUpdate n v s).work
        draws := (performUpdate n v s).draws } := by
  unfold performUpdate State.afterTransforms
  split <;> rfl

/-- An UPDATE that completes no block changes the context alone. -/
theorem performUpdate_of_lt {n : Nat} {s : State} (v : Word) (h : s.ctx.fill + n < 64) :
    performUpdate n v s = { s with ctx := absorb s.ctx (lanes v n) } := by
  have hk : absorbTransforms s.ctx n = 0 := Nat.div_eq_of_lt h
  rw [performUpdate, hk, State.afterTransforms_zero]

/-- UPDATE performed: the context absorbs the snapshot's lanes, and nothing is pending (40 R111). -/
theorem exec_update_pending {n : BitVec 3} {s : State} {p : Pending} (h : n.toNat < 5) (hp : s.pending = some p) :
    exec (.update n) s = .next
      { s with
        ctx := absorb s.ctx (lanes p.snap n.toNat)
        work := (performUpdate n.toNat p.snap s).work
        draws := (performUpdate n.toNat p.snap s).draws
        pending := none } := by
  rw [exec_update h, runCommand_pending hp, performUpdate_frame]

/-- Settles O26: INIT needs no PHASE for its acceptance, and its performance is `performInit`. -/
theorem initCreatesAFreshContext : Obligations.InitCreatesAFreshContext := by
  refine ⟨(decodeCmd_ok_iff_mem _ _).mpr (by decide), fun s hs => ?_, fun s p hp => ?_⟩
  · rw [exec_init, runCommand_idle hs, accept_of_admitted 0 (.inl rfl)]
  · rw [exec_init, runCommand_pending hp]
    rfl

/-! ### The bytes Absorb writes -/

theorem lanes_getD {n j : Nat} (v : Word) (h : j < n) : (lanes v n).getD j 0 = byteOf v j := by
  simp [lanes, List.getD_eq_getElem?_getD, h]

/-- The first block of the unconsumed input and the data, byte by byte. -/
theorem Block.ofList_tail_append_get (c : Ctx) (data : List Byte) {j : Nat} (hj : j < 64) :
    (Block.ofList (c.tail ++ data)).get j =
      if j < c.fill then c.buf.get j else data.getD (j - c.fill) 0 := by
  rw [Block.ofList_get _ _ hj]
  split
  · next h => rw [List.getD_append _ _ _ _ (by simpa using h), Ctx.tail_getD c j h]
  · next h => rw [List.getD_append_right _ _ _ _ (by simpa using h), Ctx.tail_length]

/-- Data that completes no block is written to BUF from the fill up (40 R112). -/
theorem absorb_of_lt {c : Ctx} {data : List Byte} (h : c.fill + data.length < 64) :
    absorb c data =
      { state := c.state, bitCount := addBits c.bitCount data.length, buf := bufWriteRun c.buf c.fill data } :=
  if_neg (by omega)

/-- Data that completes one block has it transformed, and what is left over goes to the bottom of BUF (40 R112). -/
theorem absorb_of_one_block {c : Ctx} {data : List Byte} (h : 64 ≤ c.fill + data.length)
    (h' : c.fill + data.length < 128) :
    absorb c data =
      { state := transform c.state (Block.ofList (c.tail ++ data))
        bitCount := addBits c.bitCount data.length
        buf := bufWriteRun (Block.ofList (c.tail ++ data)) 0 (data.drop (64 - c.fill)) } := by
  have hspace : 64 - c.fill ≤ data.length := by omega
  have hrest : (data.drop (64 - c.fill)).length / 64 = 0 := by
    have hf := c.fill_lt
    rw [List.length_drop]
    omega
  simp only [absorb, if_pos hspace, hrest, bufWriteRun_full c data hspace]
  rfl

theorem absorb_lanes_get_of_lt {c : Ctx} {n j : Nat} (v : Word) (h : c.fill + n < 64) (hj : j < 64) :
    (absorb c (lanes v n)).buf.get j =
      if c.fill ≤ j ∧ j < c.fill + n then byteOf v (j - c.fill) else c.buf.get j := by
  rw [absorb_of_lt (by simpa using h), bufWriteRun_get _ _ _ _ hj, lanes_length]
  split
  · exact lanes_getD v (by omega)
  · rfl

/-- Byte `j` of what is left over is lane `64 - fill + j`, as the first `64 - fill` lanes went to the block. -/
theorem absorb_lanes_get_of_one_block {c : Ctx} {n j : Nat} (v : Word) (h : 64 ≤ c.fill + n) (h' : c.fill + n < 128)
    (hj : j < 64) :
    (absorb c (lanes v n)).buf.get j =
      if j < c.fill + n - 64 then byteOf v (j + 64 - c.fill)
      else (Block.ofList (c.tail ++ lanes v n)).get j := by
  have hf := c.fill_lt
  have hrest : (lanes v n).length - (64 - c.fill) = c.fill + n - 64 := by
    rw [lanes_length]
    omega
  rw [absorb_of_one_block (by simpa using h) (by simpa using h'), bufWriteRun_get _ _ _ _ hj, List.length_drop, hrest]
  simp only [Nat.zero_le, true_and, Nat.zero_add, Nat.sub_zero]
  split
  · have hlane : 64 - c.fill + j = j + 64 - c.fill := by omega
    rw [List.getD_eq_getElem?_getD, List.getElem?_drop, ← List.getD_eq_getElem?_getD, hlane, lanes_getD v (by omega)]
  · rfl

/-- Settles O27: acceptance is `accept`'s two cases; performance is `absorb` of the snapshot's lanes, which number at
most 4, so that at most one block is completed. -/
theorem updateAppendsTheDinBytes : Obligations.UpdateAppendsTheDinBytes := by
  intro s n hn
  have hn5 : n.toNat < 5 := Nat.lt_succ_of_le hn
  refine ⟨decodeCmd_update hn, fun hs hp => ?_, fun hs hp => ?_, fun p hp => ?_⟩
  · rw [exec_update hn5, runCommand_idle hs, accept_of_not_active _ (by decide) hp]
    rfl
  · refine ⟨{ op := .update, n := ⟨n.toNat, hn5⟩, snap := s.din }, rfl, rfl, rfl, ?_⟩
    rw [exec_update hn5, runCommand_idle hs, accept_of_admitted _ (.inr hp)]
  · have hlen := lanes_length p.snap n.toNat
    refine ⟨_, _, _, exec_update_pending hn5 hp, ?_, ?_, fun h => ?_, fun h => ?_⟩
    · rw [absorb_bitCount, hlen, addBits]
    · rw [absorb_fill, hlen]
    · rw [performUpdate_of_lt _ h]
      exact ⟨by rw [absorb_of_lt (by rwa [hlen])], rfl, rfl, fun j hj => absorb_lanes_get_of_lt p.snap h hj⟩
    · have hf := s.ctx.fill_lt
      have h' : s.ctx.fill + n.toNat < 128 := by omega
      refine ⟨Block.ofList (s.ctx.tail ++ lanes p.snap n.toNat), fun j hj => ?_, ?_,
        fun j hj => absorb_lanes_get_of_one_block p.snap h h' hj⟩
      · rw [Block.ofList_tail_append_get _ _ hj]
        split
        · rfl
        · exact lanes_getD p.snap (by omega)
      · rw [absorb_of_one_block (by rwa [hlen]) (by rwa [hlen])]

/-! ### The bit counter -/

/-- The increment of the counter is the number of bytes, three bits up (40 R113). -/
theorem addBits_eq_add_shiftLeft (b : BitVec 64) (len : Nat) : addBits b len = b + BitVec.ofNat 64 len <<< 3 := by
  have hshift : BitVec.ofNat 64 len <<< 3 = BitVec.ofNat 64 (8 * len) := by
    apply BitVec.eq_of_toNat_eq
    simp only [BitVec.toNat_shiftLeft, BitVec.toNat_ofNat, Nat.shiftLeft_eq]
    omega
  rw [addBits, hshift]

/-- The low word of a 64-bit sum is the sum of the low words. -/
theorem extractLsb'_low_add (a b : BitVec 64) :
    (a + b).extractLsb' 0 32 = a.extractLsb' 0 32 + b.extractLsb' 0 32 := by
  apply BitVec.eq_of_toNat_eq
  simp only [BitVec.extractLsb'_toNat, BitVec.toNat_add, Nat.shiftRight_zero]
  omega

/-- The high word of a 64-bit sum takes the carry from the low words. -/
theorem extractLsb'_high_add_toNat (a b : BitVec 64) :
    ((a + b).extractLsb' 32 32).toNat =
      ((a.extractLsb' 32 32).toNat + (b.extractLsb' 32 32).toNat +
        ((a.extractLsb' 0 32).toNat + (b.extractLsb' 0 32).toNat) / 2 ^ 32) % 2 ^ 32 := by
  simp only [BitVec.extractLsb'_toNat, BitVec.toNat_add, Nat.shiftRight_eq_div_pow]
  omega

/-- Up to 64 bytes the increment has no high half. -/
theorem shiftLeft_high_eq_zero {len : Nat} (h : len ≤ 64) : (BitVec.ofNat 64 len <<< 3).extractLsb' 32 32 = 0 := by
  apply BitVec.eq_of_toNat_eq
  simp only [BitVec.extractLsb'_toNat, BitVec.toNat_shiftLeft, BitVec.toNat_ofNat, Nat.shiftLeft_eq,
    Nat.shiftRight_eq_div_pow, BitVec.ofNat_eq_ofNat]
  omega

/-- Settles O29: the counter after Absorb is one 64-bit sum, and its two words are those of any such sum. -/
theorem counterIsTheTwoWordSum : Obligations.CounterIsTheTwoWordSum := by
  intro c data
  have hsum : (absorb c data).bitCount = c.bitCount + BitVec.ofNat 64 data.length <<< 3 := by
    rw [absorb_bitCount, addBits_eq_add_shiftLeft]
  refine ⟨_, rfl, ?_, ?_, ?_, shiftLeft_high_eq_zero⟩
  · rw [Ctx.bitCountLo, hsum, extractLsb'_low_add, Ctx.bitCountLo]
  · rw [Ctx.bitCountHi, hsum, extractLsb'_high_add_toNat, Ctx.bitCountHi, Ctx.bitCountLo]
  · rw [absorb_bitCount, addBits, BitVec.toNat_add, BitVec.toNat_ofNat, Nat.add_mod_mod]

end Sys2Proof.Machine
end

section
/-! PROOFS. Finalization (41_finalization.md R130 to R137): where the pad ends, the blocks FINAL transforms, and its two
transitions. -/

namespace Sys2Proof.Machine

/-! ### The pad -/

theorem padCount_pos {fill : Nat} (h : fill < 64) : 1 ≤ padCount fill := by
  unfold padCount
  split <;> omega

theorem padCount_le {fill : Nat} (h : fill < 64) : padCount fill ≤ 64 := by
  unfold padCount
  split <;> omega

/-- The unconsumed input, the pad and the 8 bytes of the length field end at a block: the first where they fit in it,
else the second (41 R131, R135). -/
theorem fill_add_padCount_add_eight {fill : Nat} (h : fill < 64) :
    fill + padCount fill + 8 = 64 * (if fill < 56 then 1 else 2) := by
  unfold padCount
  split <;> omega

/-- Settles O30: 8 bytes before the end of a block is 56 modulo 64. -/
theorem padCountReachesFiftySix : Obligations.PadCountReachesFiftySix := by
  intro fill h
  have hend := fill_add_padCount_add_eight h
  exact ⟨rfl, padCount_pos h, padCount_le h, by omega⟩

/-! ### The blocks FINAL transforms -/

/-- What FINAL hashes, in the model's own terms. -/
theorem finalBytes_eq (c : Ctx) : finalBytes c = c.tail ++ (padBytes c.fill ++ lengthBytes c.bitCount) :=
  List.append_assoc _ _ _

theorem finalBytes_length (c : Ctx) : (finalBytes c).length = 64 * (if c.fill < 56 then 1 else 2) := by
  rw [finalBytes_eq, ← fill_add_padCount_add_eight c.fill_lt]
  simp only [List.length_append, Ctx.tail_length, padBytes_length _ c.fill_lt, lengthBytes_length, Nat.add_assoc]

/-- The two Absorbs of FINAL transform the blocks of `finalBytes`, all of them. -/
theorem finished_state (c : Ctx) :
    (finished c).state = transformSpans (if c.fill < 56 then 1 else 2) c.state (finalBytes c) := by
  have hblocks : (finalBytes c).length / 64 = if c.fill < 56 then 1 else 2 := by
    rw [finalBytes_length, Nat.mul_div_cancel_left _ (by decide)]
  calc (finished c).state
      = (absorb c (padBytes c.fill ++ lengthBytes c.bitCount)).state := (absorb_absorb c _ _).state
    _ = transformSpans ((finalBytes c).length / 64) c.state (finalBytes c) := by
        rw [(absorb_spec c _).1, ← finalBytes_eq]
    _ = _ := by rw [hblocks]

/-! ### Acceptance and performance of FINAL -/

theorem exec_final (s : State) : exec .final s = runCommand .final 0 (fun _ => performFinal) s := rfl

/-- FINAL's performance: the digest of the final blocks, and the wipe (41 R136, R137). -/
theorem performFinal_eq (s : State) :
    performFinal s =
      { s with
        ctx := Ctx.zero
        work := Work.zero
        seq := none
        digest := transformSpans (if s.ctx.fill < 56 then 1 else 2) s.ctx.state (finalBytes s.ctx)
        dvalid := true
        phase := .done } := by
  rw [← finished_state]
  rfl

/-- Settles O31: acceptance is `accept`'s two cases; performance is `performFinal`, whose two Absorbs transform
exactly the blocks of `finalBytes`. -/
theorem finalPadsExtractsAndWipes : Obligations.FinalPadsExtractsAndWipes := by
  intro s
  refine ⟨(decodeCmd_ok_iff_mem _ _).mpr (by decide), fun hs hp => ?_, fun hs hp => ?_, fun p hp => ?_,
    finalBytes_length s.ctx⟩
  · rw [exec_final, runCommand_idle hs, accept_of_not_active 0 (by decide) hp]
    rfl
  · rw [exec_final, runCommand_idle hs, accept_of_admitted 0 (.inr hp)]
  · rw [exec_final, runCommand_pending hp, performFinal_eq]
    rfl

end Sys2Proof.Machine
end

section
/-! PROOFS. The block transform (42_block_transform.md R150 to R157): its 64 steps group by group, and its worked
values. -/

namespace Sys2Proof.Machine

/-- The step indices of group `g`: `16g` to `16g + 15` (42 R153). -/
def groupIndices (g : Nat) : List (BitVec 6) := (List.range' (16 * g) 16).map (BitVec.ofNat 6)

theorem stepIndices_eq_groups :
    stepIndices = groupIndices 0 ++ groupIndices 1 ++ groupIndices 2 ++ groupIndices 3 := by decide

/-- A transform whose working words are `words 0` before group 0 and `words (g + 1)` after group `g`. -/
theorem transform_of_groups {blk : Block} (words : Fin 5 → Quad)
    (h : ∀ g : Fin 4, runSteps (decodeBlock blk) (groupIndices g) (words g.castSucc) = words g.succ) :
    transform (words 0) blk = feedForward (words 0) (words 4) := by
  have h0 : runSteps (decodeBlock blk) (groupIndices 0) (words 0) = words 1 := h 0
  have h1 : runSteps (decodeBlock blk) (groupIndices 1) (words 1) = words 2 := h 1
  have h2 : runSteps (decodeBlock blk) (groupIndices 2) (words 2) = words 3 := h 2
  have h3 : runSteps (decodeBlock blk) (groupIndices 3) (words 3) = words 4 := h 3
  rw [transform, stepIndices_eq_groups, runSteps_append, runSteps_append, runSteps_append, h0, h1, h2, h3]

/-! ### The padded "abc" block -/

/-- The message "abc", padded to one block (95 section 3.1). -/
def abcBlock : Block :=
  Block.ofList ([0x61, 0x62, 0x63, 0x80] ++ List.replicate 52 0x00 ++ [0x18] ++ List.replicate 7 0x00)

/-- The words of `abcBlock` (42 R151). -/
def abcWords : Vector Word 16 := #v[0x80636261, 0, 0, 0, 0, 0, 0, 0, 0, 0, 0, 0, 0, 0, 0x18, 0]

theorem decodeBlock_abcBlock : decodeBlock abcBlock = abcWords := by decide +kernel

/-- The IV, then rows 15, 31, 47 and 63 of the trace of 95 section 3.1. -/
def abcTrace : Fin 5 → Quad :=
  ![{ a := 0x67452301, b := 0xefcdab89, c := 0x98badcfe, d := 0x10325476 },
    { a := 0xdda9b9a6, b := 0x72aff2e0, c := 0xe396856b, d := 0xa1051895 },
    { a := 0x790a77fb, b := 0x726342d3, c := 0xa62884aa, d := 0x9f47e4f8 },
    { a := 0x7f2e507b, b := 0x7beb9700, c := 0x8fae6399, d := 0x99d9679d },
    { a := 0x310ade8f, b := 0xc08226b3, c := 0xe484b9d8, d := 0x624d8cb2 }]

theorem runSteps_abcTrace (g : Fin 4) :
    runSteps abcWords (groupIndices g) (abcTrace g.castSucc) = abcTrace g.succ := by
  revert g; decide +kernel

theorem transform_abcBlock :
    transform Ctx.initial.state abcBlock = { a := 0x98500190, b := 0xb04fd23c, c := 0x7d3f96d6, d := 0x727fe128 } :=
  calc transform (abcTrace 0) abcBlock
    _ = feedForward (abcTrace 0) (abcTrace 4) :=
        transform_of_groups abcTrace (decodeBlock_abcBlock ▸ runSteps_abcTrace)
    _ = { a := 0x98500190, b := 0xb04fd23c, c := 0x7d3f96d6, d := 0x727fe128 } := by decide

/-! ### The all-zero block: 95 section 3.2 gives its results and no trace -/

theorem transform_zero_from_zero :
    transform Quad.zero Block.zero = { a := 0xf7cd1c97, b := 0xa5483681, c := 0x2b68d832, d := 0xf90ca639 } := by
  decide +kernel

theorem transform_zero_from_initial :
    transform Ctx.initial.state Block.zero =
      { a := 0x031f1dac, b := 0x6ea58ed0, c := 0x1fab67b7, d := 0x74317791 } := by
  decide +kernel

/-- Settles O46: the "abc" block along the spec's trace, the all-zero block by evaluation of the transform. -/
theorem transformWorkedValues : Obligations.TransformWorkedValues :=
  ⟨transform_abcBlock, transform_zero_from_zero, transform_zero_from_initial⟩

end Sys2Proof.Machine
end

section
/-! PROOFS. The round processor (43_round_processor.md R170 to R178): its mixing functions, its rotation and the four
step forms. -/

namespace Sys2Proof.Machine

/-! ### The mixing functions -/

theorem mixF_allOnes (y z : Word) : mixF (BitVec.allOnes 32) y z = y := by
  rw [mixF, BitVec.allOnes_and, BitVec.not_allOnes, BitVec.zero_and, BitVec.or_zero]

theorem mixF_zero (y z : Word) : mixF 0#32 y z = z := by
  rw [mixF, BitVec.zero_and, BitVec.not_zero, BitVec.allOnes_and, BitVec.zero_or]

theorem mixG_allOnes (x y : Word) : mixG x y (BitVec.allOnes 32) = x := by
  rw [mixG, BitVec.and_allOnes, BitVec.not_allOnes, BitVec.and_zero, BitVec.or_zero]

theorem mixG_zero (x y : Word) : mixG x y 0#32 = y := by
  rw [mixG, BitVec.and_zero, BitVec.not_zero, BitVec.and_allOnes, BitVec.zero_or]

theorem mixH_self (x z : Word) : mixH x x z = z := by
  rw [mixH, BitVec.xor_self, BitVec.zero_xor]

theorem mixI_allOnes (y z : Word) : mixI (BitVec.allOnes 32) y z = ~~~y := by
  rw [mixI, BitVec.allOnes_or, BitVec.xor_allOnes]

/-- Settles O39: the formulas are the definitions, the corner cases are laws of the bitwise operations, and the
examples are evaluated. -/
theorem mixingFunctions : Obligations.MixingFunctions := by
  intro x y z
  refine ⟨⟨rfl, rfl, rfl, rfl⟩, ⟨mixF_zero 0 0, mixF_allOnes y z, mixF_zero y z, mixG_allOnes x y, mixG_zero x y,
    mixH_self x z, mixH_self 0 0, ?zeroI, mixI_allOnes y z⟩, ?examples⟩
  case zeroI => decide
  case examples => decide

/-! ### The rotation -/

/-- `rotl32` by less than the word width is the rotation; the library's own definition reduces the shift modulo the
width first (43 R174). -/
theorem rotl32_eq_rotateLeft (x : Word) {k : Nat} (h : k < 32) : rotl32 x k = x.rotateLeft k :=
  (BitVec.rotateLeft_eq_rotateLeftAux_of_lt h).symm

theorem rotl32_shiftAmount (i : BitVec 6) (x : Word) : rotl32 x (shiftAmount i) = x.rotateLeft (shiftAmount i) :=
  rotl32_eq_rotateLeft x (shiftAmount_range i).2

theorem shiftAmount_mem (i : BitVec 6) :
    shiftAmount i ∈ [4, 5, 6, 7, 9, 10, 11, 12, 14, 15, 16, 17, 20, 21, 22, 23] := by
  revert i; decide +kernel

/-- Settles O38: the shifts are read off the table's 64 rows, and each is below the word width. -/
theorem rotationByTheTableShifts : Obligations.RotationByTheTableShifts :=
  fun i x => ⟨shiftAmount_mem i, rfl, rotl32_shiftAmount i x⟩

/-! ### The step index -/

@[simp] theorem stepIndex_operand (g : BitVec 2) (j : BitVec 4) : (stepIndex g j).extractLsb' 0 4 = j :=
  BitVec.extractLsb'_append_eq_right

@[simp] theorem stepIndex_group (g : BitVec 2) (j : BitVec 4) : (stepIndex g j).extractLsb' 4 2 = g :=
  BitVec.extractLsb'_append_eq_left

theorem decodeStep_stepIndex (j : BitVec 4) :
    decodeStep (stepIndex 0 j) = .stepF j ∧ decodeStep (stepIndex 1 j) = .stepG j ∧
      decodeStep (stepIndex 2 j) = .stepH j ∧ decodeStep (stepIndex 3 j) = .stepI j := by
  simp [decodeStep]

/-- The step index of group `g` and operand `j` is the number `16g + j` (30 R86). -/
theorem stepIndex_eq_ofNat (g : BitVec 2) (j : BitVec 4) :
    stepIndex g j = BitVec.ofNat 6 (16 * g.toNat + j.toNat) := by
  apply BitVec.eq_of_toNat_eq
  rw [stepIndex, BitVec.toNat_append, ← Nat.shiftLeft_add_eq_or_of_lt j.isLt, Nat.shiftLeft_eq, BitVec.toNat_ofNat]
  omega

/-! ### The step forms -/

/-- The new working words of step `i`, where the mixing function's value on the old ones is `f` (43 R175). -/
def roundWords (w : Work) (f : Word) (i : BitVec 6) : Quad :=
  { a := w.cur.d
    b := w.cur.b + (w.cur.a + f + w.m[wordIndex i] + roundConst i).rotateLeft (shiftAmount i)
    c := w.cur.b
    d := w.cur.c }

theorem stepWords_eq_roundWords (f : Word → Word → Word → Word) (i : BitVec 6) (w : Work) :
    stepWords f i w.cur w.m = roundWords w (f w.cur.b w.cur.c w.cur.d) i := by
  rw [stepWords, rotl32_shiftAmount, roundWords]

/-- A step form writes the working words of `roundWords` and nothing else (43 R178). -/
theorem runStep_eq_roundWords (f : Word → Word → Word → Word) (i : BitVec 6) (s : State) :
    runStep f i s =
      .next { s with work := { s.work with
        cur := roundWords s.work (f s.work.cur.b s.work.cur.c s.work.cur.d) i } } := by
  rw [runStep, stepWords_eq_roundWords]

/-- Settles O37: each index is a `stepIndex`, which decodes to the form of its group, and each form is `runStep` with
the mixing function of that group. -/
theorem stepFormsComputeTheRound : Obligations.StepFormsComputeTheRound := by
  intro s j
  have hF : BitVec.ofNat 6 j.toNat = stepIndex 0 j := by simp [stepIndex_eq_ofNat]
  have hG : BitVec.ofNat 6 (16 + j.toNat) = stepIndex 1 j := (stepIndex_eq_ofNat 1 j).symm
  have hH : BitVec.ofNat 6 (32 + j.toNat) = stepIndex 2 j := (stepIndex_eq_ofNat 2 j).symm
  have hI : BitVec.ofNat 6 (48 + j.toNat) = stepIndex 3 j := (stepIndex_eq_ofNat 3 j).symm
  obtain ⟨decF, decG, decH, decI⟩ := decodeStep_stepIndex j
  rw [hF, hG, hH, hI]
  exact ⟨decF, decG, decH, decI, roundWords s.work, fun _ _ => rfl,
    runStep_eq_roundWords mixF _ s, runStep_eq_roundWords mixG _ s, runStep_eq_roundWords mixH _ s,
    runStep_eq_roundWords mixI _ s⟩

end Sys2Proof.Machine
end

section
/-! PROOFS. Acceptance and errors (60_exceptions.md R200 to R209): the checks of a CMD write in their order, and how
many errors one access of the host raises. -/

namespace Sys2Proof.Machine

/-! ### The words that need ACTIVE -/

/-- Among the legal words, those that need PHASE = ACTIVE are all but INIT's (60 R202). -/
theorem mem_activeWords_iff_ne_init {w : Word} {i : Instr} (h : decodeCmd w = .ok i) :
    w ∈ activeWords ↔ i ≠ .init := by
  have hall : ∀ c ∈ commandWords, c.1 ∈ activeWords → c.2 ≠ .init := by decide
  exact ⟨hall (w, i) ((decodeCmd_ok_iff_mem w i).mp h), mem_activeWords_of_decodeCmd h⟩

theorem decodeCmd_of_mem_activeWords {w : Word} (h : w ∈ activeWords) : ∃ i, decodeCmd w = .ok i := by
  have htail : activeWords = commandWords.tail.map (·.1) := rfl
  obtain ⟨⟨_, i⟩, hc, rfl⟩ := List.mem_map.mp (htail ▸ h)
  exact ⟨i, (decodeCmd_ok_iff_mem _ i).mpr (List.mem_of_mem_tail hc)⟩

theorem Pending.instr_eq_init_iff (p : Pending) : p.instr = .init ↔ p.op = .init := by
  obtain ⟨op, n, v⟩ := p
  cases op <;> simp [Pending.instr]

/-- A pending command's count is the field N of the word it was written as; INIT and FINAL have N = 0 (30 R80). -/
theorem Pending.count_eq_cmdN {p : Pending} {w : Word} (hw : decodeCmd w = .ok p.instr)
    (hn : p.op ≠ .update → p.n = 0) : p.n.val = (cmdN w).toNat := by
  rw [decodeCmd_encode hw]
  have hinit : 0 = (cmdN (BitVec.ofNat 32 (encode .init))).toNat := by decide
  have hfinal : 0 = (cmdN (BitVec.ofNat 32 (encode .final))).toNat := by decide
  have hupdate : ∀ n : Fin 5,
      n.val = (cmdN (BitVec.ofNat 32 (encode (.update (BitVec.ofNat 3 n.val))))).toNat := by decide
  obtain ⟨op, n, v⟩ := p
  cases op with
  | init => obtain rfl := hn nofun; exact hinit
  | update => exact hupdate n
  | final => obtain rfl := hn nofun; exact hfinal

/-! ### The checks of a CMD write -/

/-- BUSY is checked first: whatever the word (60 R203). -/
theorem cmdWrite_of_pending {s : State} (w : Word) (hp : s.pending ≠ none) : cmdWrite w s = .next (s.raise .busy) := by
  rcases cmdWrite_cases w s with ⟨-, h⟩ | ⟨hnone, -⟩ | ⟨hnone, -⟩
  · exact h
  · exact absurd hnone hp
  · exact absurd hnone hp

/-- A legal word on an idle instance meets the check of PHASE alone: it raises ERR_MISUSE, or becomes PENDING with the
DIN of this step (60 R201, R202). -/
theorem cmdWrite_of_decodeCmd_ok {w : Word} {i : Instr} {s : State} (hp : s.pending = none)
    (hw : decodeCmd w = .ok i) :
    ∃ p : Pending, p.instr = i ∧ p.n.val = (cmdN w).toNat ∧ p.snap = s.din ∧
      cmdWrite w s =
        .next (if w ∈ activeWords ∧ s.phase ≠ .active then s.raise .misuse else { s with pending := some p }) := by
  rcases cmdWrite_cases w s with ⟨hb, -⟩ | ⟨-, ⟨e, he⟩, -⟩ | ⟨-, i', op, n, hi', rfl, hn, h⟩
  · simp [State.busy, hp] at hb
  · exact nomatch hw.symm.trans he
  · obtain rfl := Except.ok.inj (hw.symm.trans hi')
    have hactive : w ∈ activeWords ↔ op ≠ .init :=
      (mem_activeWords_iff_ne_init hw).trans (Pending.instr_eq_init_iff _).not
    refine ⟨_, rfl, Pending.count_eq_cmdN hw hn, rfl, ?_⟩
    rcases h with ⟨ho, hphase, h⟩ | ⟨hadmitted, h⟩
    · rw [if_pos ⟨hactive.mpr ho, hphase⟩, h]
    · rw [if_neg fun hbad => hadmitted.elim (hactive.mp hbad.1) hbad.2, h]

/-- PHASE is checked last: UPDATE and FINAL outside ACTIVE raise ERR_MISUSE and do nothing else (60 R202). -/
theorem cmdWrite_of_not_active {w : Word} {s : State} (hp : s.pending = none) (hw : w ∈ activeWords)
    (hphase : s.phase ≠ .active) : cmdWrite w s = .next (s.raise .misuse) := by
  obtain ⟨i, hi⟩ := decodeCmd_of_mem_activeWords hw
  obtain ⟨p, -, -, -, h⟩ := cmdWrite_of_decodeCmd_ok hp hi
  rw [h, if_pos ⟨hw, hphase⟩]

/-- A legal word that passes every check becomes PENDING, with DIN as its snapshot (60 R201). -/
theorem cmdWrite_of_admitted {w : Word} {i : Instr} {s : State} (hp : s.pending = none) (hw : decodeCmd w = .ok i)
    (hphase : w ∈ activeWords → s.phase = .active) :
    ∃ p : Pending, p.instr = i ∧ p.n.val = (cmdN w).toNat ∧ p.snap = s.din ∧
      cmdWrite w s = .next { s with pending := some p } := by
  obtain ⟨p, hi, hn, hsnap, h⟩ := cmdWrite_of_decodeCmd_ok hp hw
  refine ⟨p, hi, hn, hsnap, ?_⟩
  rw [h, if_neg fun hbad => hbad.2 (hphase hbad.1)]

theorem cmdWrite_of_not_mem_commandWords {w : Word} {s : State} (hp : s.pending = none)
    (hw : w ∉ commandWords.map (·.1)) : cmdWrite w s = .next (s.raise .cmd) := by
  obtain ⟨e, he⟩ := decodeCmd_error_of_not_mem hw
  exact cmdWrite_of_decodeCmd_error hp he

/-- A 32-bit write at offset 0 is the CMD write. -/
theorem busWrite_cmd (w : Word) (s : State) : busWrite 0x00 4 w s = cmdWrite w s := rfl

/-- Settles O23: one `cmdWrite` lemma per check and one for the command that passes them all; a DIN write then reaches
DIN alone, and each flag is the STATUS bit of its cause code. -/
theorem commandWriteChecksAndAccepts : Obligations.CommandWriteChecksAndAccepts := by
  intro s w
  rw [busWrite_cmd, busRead_status]
  refine ⟨cmdWrite_of_pending w, cmdWrite_of_not_mem_commandWords, cmdWrite_of_not_active, ?_,
    s.statusWord_error .misuse, s.statusWord_error .busy, s.statusWord_error .cmd⟩
  intro i hp hi hphase
  obtain ⟨p, hinstr, hn, hsnap, h⟩ := cmdWrite_of_admitted hp ((decodeCmd_ok_iff_mem w i).mpr hi) hphase
  exact ⟨p, hinstr, hn, hsnap, h, fun v => rfl⟩

/-! ### One error per access -/

/-- Whatever a host action does, it sets at most one error flag (60 R209). -/
theorem HostEffect.sets_at_most_one {a : HostAction} {s t : State} (h : HostEffect a s t) :
    ∃ e, ∀ e', e' ≠ e → t.err.get e' = true → s.err.get e' = true := by
  cases h with
  | error e r =>
    refine ⟨e, fun e' hne hset => ?_⟩
    rwa [State.raise_err, ErrFlags.get_set, if_neg hne] at hset
  | clear v =>
    refine ⟨.access, fun e' _ hset => ?_⟩
    rw [State.clearErrors_get] at hset
    exact (Bool.and_eq_true_iff.mp hset).1
  | reset => exact ⟨.access, fun e' _ hset => by cases e' <;> exact absurd hset Bool.false_ne_true⟩
  | read | din | accept | poll => exact ⟨.access, fun _ _ hset => hset⟩

/-- The engine's step leaves the error flags as they are (60 R209). -/
theorem exec_pending_err {s : State} {p : Pending} (hp : s.pending = some p) :
    ∃ t, exec p.instr s = .next t ∧ t.err = s.err :=
  ⟨_, exec_pending hp, Pending.perform_err p s⟩

/-- Settles O24: every effect of a host action sets at most one flag, the checks of a CMD write and the illegal write
name theirs, and the engine sets none. -/
theorem atMostOneErrorPerAccess : Obligations.AtMostOneErrorPerAccess :=
  ⟨fun _ _ _ h => (hostAct_effect h).sets_at_most_one, fun _ w => cmdWrite_of_pending w,
    fun _ _ => cmdWrite_of_not_mem_commandWords, fun _ _ => cmdWrite_of_not_active,
    fun s _ _ v _ h => busWrite_of_writeIllegal v s h, fun _ _ => exec_pending_err⟩

end Sys2Proof.Machine
end

section
/-! PROOFS. The two instruction spaces (30_encoding.md R80 to R86) and the columns of the round table that have a
closed form (43_round_processor.md R177). -/

namespace Sys2Proof

/-- The table's decoder reads a 32-bit word as a CMD word. -/
theorem decodeTableWord_of_decodeCmd {w : Word} {i : Instr} (h : decodeCmd w = .ok i) :
    decodeTableWord 32 w.toNat = some i := by
  rw [decodeTableWord, if_neg (by decide), if_pos w.isLt, BitVec.ofNat_toNat, BitVec.setWidth_eq, h]

/-- The table's decoder reads a byte as a step index. -/
theorem decodeTableWord_step (i : BitVec 6) : decodeTableWord 8 i.toNat = some (decodeStep i) := by
  rw [decodeTableWord, if_pos (by decide), if_pos i.isLt, BitVec.ofNat_toNat, BitVec.setWidth_eq]

theorem decodeCmd_cmdWord_init : decodeCmd (cmdWord 0 0 1) = .ok .init := by decide

theorem decodeCmd_cmdWord_final : decodeCmd (cmdWord 0 0 3) = .ok .final := by decide

/-- The fields 0, `n` and 2 are the word of UPDATE n, up to the greatest count (30 R81, R84). -/
theorem decodeCmd_cmdWord_update {n : BitVec 3} (hn : n.toNat ≤ 4) : decodeCmd (cmdWord 0 n 2) = .ok (.update n) := by
  simp [decodeCmd, Nat.not_lt.mpr hn]

namespace Machine

/-- Settles O1: a command's fields decode to it, and a step index to the form of its group. -/
theorem decodeOfEncodeIsTheInstruction : Obligations.DecodeOfEncodeIsTheInstruction := by
  intro i hwf
  have hstep := fun (g : BitVec 2) (j : BitVec 4) => decodeTableWord_step (stepIndex g j)
  cases i with
  | init => exact decodeTableWord_of_decodeCmd decodeCmd_cmdWord_init
  | update n => exact decodeTableWord_of_decodeCmd (decodeCmd_cmdWord_update (of_decide_eq_true hwf))
  | final => exact decodeTableWord_of_decodeCmd decodeCmd_cmdWord_final
  | stepF j => exact (hstep 0 j).trans (congrArg some (decodeStep_stepIndex j).1)
  | stepG j => exact (hstep 1 j).trans (congrArg some (decodeStep_stepIndex j).2.1)
  | stepH j => exact (hstep 2 j).trans (congrArg some (decodeStep_stepIndex j).2.2.1)
  | stepI j => exact (hstep 3 j).trans (congrArg some (decodeStep_stepIndex j).2.2.2)

/-- Settles O2: the table is `commandWords`. -/
theorem legalCommandWordsAreTheSeven : Obligations.LegalCommandWordsAreTheSeven := decodeCmd_ok_iff_mem

/-- Settles O3: the ten words are evaluated. -/
theorem writtenOutWordsDecode : Obligations.WrittenOutWordsDecode := by
  unfold Obligations.WrittenOutWordsDecode
  decide

/-! ### The word index and the shift of a step -/

/-- In one group no two steps read the same block word. -/
theorem wordIndex_stepIndex_injective (g : BitVec 2) (j j' : BitVec 4)
    (h : wordIndex (stepIndex g j') = wordIndex (stepIndex g j)) : j' = j := by
  revert g j j'
  decide +kernel

/-- In one group every block word is read. -/
theorem wordIndex_stepIndex_surjective (g : BitVec 2) (k : Fin 16) : ∃ j : BitVec 4, wordIndex (stepIndex g j) = k := by
  revert g k
  decide +kernel

/-- Settles O40: the closed forms are read off the table's 64 rows. -/
theorem roundTableClosedForms : Obligations.RoundTableClosedForms := by
  constructor
  · decide +kernel
  · intro g k
    obtain ⟨j, rfl⟩ := wordIndex_stepIndex_surjective g k
    exact ⟨j, rfl, wordIndex_stepIndex_injective g j⟩

end Machine
end Sys2Proof
end

section
/-! PROOFS. One step of the machine (20_memory.md R50 to R53): what it runs for each agent and each turn, where it
stops, and how soon the engine moves. -/

namespace Sys2Proof.Machine

/-! ### The step of each agent -/

theorem hostReady_iff (s : State) : s.hostReady = true ↔ s.host ≠ [] := by
  simp [State.hostReady]

theorem hostReady_eq_false {s : State} (hh : s.host = []) : s.hostReady = false :=
  Bool.eq_false_iff.mpr fun h => (hostReady_iff s).mp h hh

theorem busy_eq_false {s : State} (hp : s.pending = none) : s.busy = false := by
  rw [State.busy, hp]
  rfl

theorem engineReady_of_pending {s : State} {p : Pending} (hp : s.pending = some p) : s.engineReady = true :=
  (busy_iff s).mpr ⟨p, hp⟩

/-- Where the host has no access to make, the engine performs the pending command. -/
theorem step_of_no_host {s : State} {p : Pending} (hi : s.seq = none) (hp : s.pending = some p) (hh : s.host = []) :
    step s = exec p.instr s := by
  rw [step_of_engine hi (nextAgent_engine (engineReady_of_pending hp) (hostReady_eq_false hh)), engineStep_pending hp]

/-- Where both agents can move, the turn drawn decides. -/
theorem nextAgent_of_drawTurn {s s' : State} {p : Pending} {g : Agent} (hp : s.pending = some p) (hh : s.host ≠ [])
    (hd : s.drawTurn = (g, s')) : s.nextAgent = (some g, s') := by
  rw [nextAgent_both (engineReady_of_pending hp) ((hostReady_iff s).mpr hh), hd]

/-- The engine's turn performs the pending command. -/
theorem step_of_engine_turn {s s' : State} {p : Pending} (hi : s.seq = none) (hp : s.pending = some p)
    (hh : s.host ≠ []) (hd : s.drawTurn = (.engine, s')) : step s = exec p.instr s' := by
  have hp' : s'.pending = some p := by
    obtain ⟨ts, d, hf⟩ := drawTurn_frame s
    rw [hd] at hf
    exact (congrArg State.pending hf).trans hp
  rw [step_of_engine hi (nextAgent_of_drawTurn hp hh hd), engineStep_pending hp']

/-- The host's turn makes its next access. -/
theorem step_of_host_turn {s s' : State} {p : Pending} (hi : s.seq = none) (hp : s.pending = some p)
    (hh : s.host ≠ []) (hd : s.drawTurn = (.host, s')) : step s = hostStep s' :=
  step_of_host hi (nextAgent_of_drawTurn hp hh hd)

/-- With nothing pending the host makes its next access. -/
theorem step_of_idle {s : State} {a : HostAction} {rest : List HostAction} (hi : s.seq = none)
    (hp : s.pending = none) (hh : s.host = a :: rest) : step s = hostAct a { s with host := rest } := by
  have hready : s.hostReady = true := (hostReady_iff s).mpr (hh ▸ List.cons_ne_nil a rest)
  rw [step_of_host hi (nextAgent_host (busy_eq_false hp) hready), hostStep_cons hh]

/-- Settles O5: no host access, or one of the four ways a turn is drawn. -/
theorem stepRunsThePendingCommand : Obligations.StepRunsThePendingCommand := fun _ _ hi hp =>
  ⟨step_of_no_host hi hp, fun _ hh ht => step_of_engine_turn hi hp hh (drawTurn_listed ht),
    fun _ hh ht => step_of_host_turn hi hp hh (drawTurn_listed ht),
    fun hh ht hf => step_of_engine_turn hi hp hh (drawTurn_dealt_engine ht hf),
    fun _ hh ht hf => step_of_host_turn hi hp hh (drawTurn_dealt_host ht hf)⟩

/-! ### The host's access -/

/-- An offset below the window's size is in the window (20 R52). -/
theorem State.offset_base_add (s : State) {off : Nat} (h : off < 64) : s.offset (s.base + off) = some off := by
  simp [State.offset, Config.windowSize, h]

theorem State.offset_eq_none_iff (s : State) (addr : Nat) :
    s.offset addr = none ↔ ¬ (s.base ≤ addr ∧ addr < s.base + 64) := by
  unfold State.offset Config.windowSize
  split
  · simp only [reduceCtorEq, false_iff]
    omega
  · simp only [true_iff]
    omega

/-- An address that has an offset is in the window. -/
theorem State.mem_window_of_offset {s : State} {addr off : Nat} (h : s.offset addr = some off) :
    s.base ≤ addr ∧ addr < s.base + 64 := by
  by_contra hout
  exact absurd (((s.offset_eq_none_iff addr).mpr hout).symm.trans h) nofun

theorem hostAct_read_of_offset {s : State} {addr off : Nat} (size : Nat) (h : s.offset addr = some off) :
    hostAct (.read addr size) s = .next (s.keepRead off size) := by
  simp only [hostAct, h]

theorem hostAct_write_of_offset {s : State} {addr off : Nat} (size : Nat) (v : Word) (h : s.offset addr = some off) :
    hostAct (.write addr size v) s = busWrite off size v s := by
  simp only [hostAct, h]

/-- Settles O16: an address is in the window where its offset is, and `hostAct` then makes the access there. -/
theorem accessReachesItsOffset : Obligations.AccessReachesItsOffset := fun s _ size v h =>
  ⟨hostAct_read_of_offset size (s.offset_base_add h), hostAct_write_of_offset size v (s.offset_base_add h)⟩

/-- A 32-bit write at BASE is the CMD write. -/
theorem hostAct_write_cmd (w : Word) (s : State) : hostAct (.write s.base 4 w) s = cmdWrite w s := by
  exact hostAct_write_of_offset 4 w (s.offset_base_add (off := 0) (by decide))

/-- A legal word written to CMD of an idle instance is run. -/
theorem cmdWrite_eq_exec {w : Word} {i : Instr} {s : State} (hp : s.pending = none) (hw : decodeCmd w = .ok i) :
    cmdWrite w s = exec i s := by
  simp [cmdWrite, State.busy, hp, hw]

/-- Settles O6: the idle instance's step is the host's access, which is a CMD write. -/
theorem stepRunsTheWrittenCommand : Obligations.StepRunsTheWrittenCommand := by
  intro s w i rest hi hp _ hh hw
  rw [step_of_idle hi hp hh, hostAct_write_cmd w { s with host := rest },
    cmdWrite_eq_exec (s := { s with host := rest }) hp hw]

/-! ### The sequencer's step -/

/-- Before step 63 the counter goes up by 1 (42 R153). -/
theorem State.advanceSeq_of_lt {i : BitVec 6} (h : i.toNat < 63) (s : State) :
    s.advanceSeq i = { s with seq := some (i + 1) } :=
  if_neg fun h63 => absurd (congrArg BitVec.toNat h63) h.ne

/-- Settles O7: the step form that the counter names, then `advanceSeq`. -/
theorem stepRunsTheIssuedStep : Obligations.StepRunsTheIssuedStep := by
  intro s i hi
  have hstep := step_of_seq hi
  rw [exec_decodeStep] at hstep ⊢
  refine ⟨_, rfl, fun h => ?_, fun h => ?_⟩
  · rw [hstep, mapNext, State.advanceSeq_of_lt h]
  · obtain rfl : i = 63 := BitVec.eq_of_toNat_eq h
    exact hstep

/-! ### A word placed for the next step -/

theorem State.withFetchWord_cmd (s : State) (w : Word) : s.withFetchWord 32 w.toNat = s.placeCommand w := by
  rw [State.withFetchWord, if_neg (by decide), if_pos w.isLt, BitVec.ofNat_toNat, BitVec.setWidth_eq]

theorem State.withFetchWord_step (s : State) (i : BitVec 6) :
    s.withFetchWord 8 i.toNat = { s with seq := some i } := by
  rw [State.withFetchWord, if_pos (by decide), if_pos i.isLt, BitVec.ofNat_toNat, BitVec.setWidth_eq]

/-- A command that is accepted is placed as the pending one, with the turn given to the engine where the host could
move too (log entry 9). -/
theorem State.placeCommand_of_accepted {s : State} {w : Word} {i : Instr} {p : Pending} (hw : decodeCmd w = .ok i)
    (h : exec i { s with seq := none, pending := none } = .next { s with seq := none, pending := some p }) :
    s.placeCommand w =
      if s.hostReady then { s with seq := none, pending := some p, turns := .engine :: s.turns }
      else { s with seq := none, pending := some p } := by
  simp only [State.placeCommand, hw, h, nextOf]
  exact if_pos rfl

/-- A placed command is performed by the next step. -/
theorem step_placed {s : State} {p : Pending} (hi : s.seq = none) (hp : s.pending = some p) :
    step (if s.hostReady then { s with turns := .engine :: s.turns } else s) = exec p.instr s := by
  by_cases hh : s.host = []
  · rw [hostReady_eq_false hh]
    exact step_of_no_host hi hp hh
  · rw [(hostReady_iff s).mpr hh]
    exact step_of_engine_turn (s := { s with turns := .engine :: s.turns }) hi hp hh (drawTurn_listed rfl)

/-- Settles O8: the placed command is pending and the engine's turn is next; the placed index is the counter. -/
theorem placedWordRunsNext : Obligations.PlacedWordRunsNext := by
  constructor
  · intro s w i hw hadm
    have hphase : w ∈ activeWords → s.phase = .active := fun hm =>
      hadm.resolve_left ((mem_activeWords_iff_ne_init hw).mp hm)
    obtain ⟨p, rfl, -, hsnap, h⟩ := cmdWrite_of_admitted (s := { s with seq := none, pending := none }) rfl hw hphase
    rw [cmdWrite_eq_exec rfl hw] at h
    refine ⟨p, rfl, hsnap, ?_⟩
    rw [State.withFetchWord_cmd, State.placeCommand_of_accepted hw h]
    exact step_placed (s := { s with seq := none, pending := some p }) rfl rfl
  · intro s i
    rw [State.withFetchWord_step, step_of_seq rfl]

/-! ### Where a step stops -/

/-- A host action answers a next state, or it is an access outside the window (20 R53, log entry 10). -/
theorem hostAct_answers (a : HostAction) (s : State) :
    (∃ t, hostAct a s = .next t) ∨
      (hostAct a s = .fault .outsideWindow ∧
        ∃ addr size, s.offset addr = none ∧ (a = .read addr size ∨ ∃ v, a = .write addr size v)) := by
  cases a with
  | read addr size =>
    cases ho : s.offset addr with
    | none => exact .inr ⟨by simp only [hostAct, ho], addr, size, ho, .inl rfl⟩
    | some off => exact .inl ⟨_, hostAct_read_of_offset size ho⟩
  | write addr size v =>
    cases ho : s.offset addr with
    | none => exact .inr ⟨by simp only [hostAct, ho], addr, size, ho, .inr ⟨v, rfl⟩⟩
    | some off =>
      rw [hostAct_write_of_offset size v ho]
      exact .inl (busWrite_answers off size v s)
  | wait => exact .inl ⟨_, rfl⟩
  | reset => exact .inl ⟨_, rfl⟩

/-- Settles O9: the sequencer and the engine always answer, and so does the host inside the window. -/
theorem stepStopsOnlyOutsideTheWindow : Obligations.StepStopsOnlyOutsideTheWindow := by
  intro s
  have hc := step_case s
  generalize step s = r at hc
  cases hc with
  | sequencer i _ =>
    rw [exec_decodeStep]
    exact .inl ⟨_, rfl⟩
  | engine p ts d _ hp => exact .inl ⟨_, exec_pending (s := { s with turns := ts, draws := d }) hp⟩
  | host a rest ts d _ hh _ =>
    rcases hostAct_answers a { s with turns := ts, draws := d, host := rest } with
      ht | ⟨hf, addr, size, ho, ha⟩
    · exact .inl ht
    · refine .inr ⟨hf, addr, size, rest, (s.offset_eq_none_iff addr).mp ho, ?_⟩
      rw [hh]
      exact ha.imp (congrArg (· :: rest)) fun ⟨v, hv⟩ => ⟨v, congrArg (· :: rest) hv⟩
  | idle => exact .inl ⟨s, rfl⟩

/-! ### A command the engine has performed -/

@[simp] theorem Pending.perform_host (p : Pending) (s : State) : (p.perform s).host = s.host := by
  unfold Pending.perform
  cases p.op <;> simp only [performInit_host, performUpdate_host, performFinal_host]

@[simp] theorem Pending.perform_base (p : Pending) (s : State) : (p.perform s).base = s.base := by
  unfold Pending.perform
  cases p.op <;> simp only [performInit_base, performUpdate_base, performFinal_base]

@[simp] theorem Pending.perform_reads (p : Pending) (s : State) : (p.perform s).reads = s.reads := by
  unfold Pending.perform
  cases p.op <;> simp only [performInit_reads, performUpdate_reads, performFinal_reads]

/-- The engine's step is atomic: it leaves no transform under way (20 R51). -/
theorem Pending.perform_seq (p : Pending) {s : State} (hi : s.seq = none) : (p.perform s).seq = none := by
  unfold Pending.perform
  cases p.op <;> simp only [performInit_seq, performUpdate_seq, performFinal_seq, hi]

/-- The step after the engine's turn: the instance is idle, and the host makes the access it would have made. -/
theorem step_after_performance {s : State} {p : Pending} {a : HostAction} {rest : List HostAction} (hi : s.seq = none)
    (hh : s.host = a :: rest) :
    step { p.perform s with pending := none } = hostAct a { p.perform s with pending := none, host := rest } :=
  step_of_idle (p.perform_seq hi) rfl ((p.perform_host s).trans hh)

/-- Settles O11: the host's turn meets BUSY = 1; the engine's turn leaves an idle instance, BASE and the host's list as
they were, and the next step is the write. -/
theorem nextCommandWriteMayFindBusyOrIdle : Obligations.NextCommandWriteMayFindBusyOrIdle := by
  intro s p w rest ts hi hp hh
  have hne : s.host ≠ [] := hh ▸ List.cons_ne_nil _ _
  constructor
  · intro ht
    rw [step_of_host_turn hi hp hne (drawTurn_listed ht), hostStep_cons (s := { s with turns := ts }) hh,
      hostAct_write_cmd w { s with turns := ts, host := rest }]
    exact cmdWrite_of_pending w (hp ▸ Option.some_ne_none p)
  · intro ht
    set u := { s with turns := ts }
    have hstep : step s = .next { p.perform u with pending := none } :=
      (step_of_engine_turn hi hp hne (drawTurn_listed ht)).trans (exec_pending (s := u) hp)
    refine ⟨_, hstep, rfl, p.perform_host u, p.perform_err u, ?_⟩
    have hbase : s.base = (p.perform u).base := (p.perform_base u).symm
    rw [step_after_performance (s := u) hi hh, hbase]
    exact hostAct_write_cmd w { p.perform u with pending := none, host := rest }

end Sys2Proof.Machine
end

section
/-! PROOFS. Fairness of the engine (20_memory.md R50, R51; log entries 3 and 4): how many turns the host has before the
engine's next, and what that bounds: the time a command is pending, and the loop WAIT (30_encoding.md R88). -/

namespace Sys2Proof.Machine

/-! ### The host's turns before the engine's next -/

/-- How many turns the host is listed for, and then dealt at draw number `draw`, before the engine's next. -/
def hostTurnsBefore (draw : Nat) : List Agent → Nat
  | [] => Config.freeHostTurns draw
  | .engine :: _ => 0
  | .host :: ts => hostTurnsBefore draw ts + 1

theorem hostTurnsBefore_le (draw : Nat) (ts : List Agent) :
    hostTurnsBefore draw ts ≤ ts.length + Config.freeHostTurns draw := by
  induction ts with
  | nil => exact Nat.le_add_left _ _
  | cons g ts ih =>
    cases g with
    | engine => exact Nat.zero_le _
    | host =>
      rw [hostTurnsBefore, List.length_cons]
      omega

theorem hostTurnsBefore_dealt (draw n : Nat) : hostTurnsBefore draw (List.replicate n .host ++ [.engine]) = n := by
  induction n with
  | zero => rfl
  | succ n ih => rw [List.replicate_succ, List.cons_append, hostTurnsBefore, ih]

/-- The turns of the host before the engine's next. -/
def State.hostTurns (s : State) : Nat := hostTurnsBefore s.draws s.turns

theorem State.hostTurns_le (s : State) : s.hostTurns ≤ s.turns.length + Config.freeHostTurns s.draws :=
  hostTurnsBefore_le _ _

/-- With no turn of the host left, the engine moves. -/
theorem drawTurn_of_hostTurns_zero {s : State} (h : s.hostTurns = 0) : ∃ s', s.drawTurn = (.engine, s') := by
  unfold State.hostTurns at h
  cases ht : s.turns with
  | nil => rw [ht] at h; exact ⟨_, drawTurn_dealt_engine ht h⟩
  | cons g ts =>
    cases g with
    | engine => exact ⟨_, drawTurn_listed ht⟩
    | host => rw [ht] at h; exact absurd h (Nat.succ_ne_zero _)

/-- Otherwise the host moves, and has one turn less. -/
theorem drawTurn_of_hostTurns_succ {s : State} {n : Nat} (h : s.hostTurns = n + 1) :
    ∃ ts d, s.drawTurn = (.host, { s with turns := ts, draws := d }) ∧ hostTurnsBefore d ts = n := by
  unfold State.hostTurns at h
  cases ht : s.turns with
  | nil =>
    rw [ht] at h
    exact ⟨_, _, drawTurn_dealt_host ht h, hostTurnsBefore_dealt _ n⟩
  | cons g ts =>
    rw [ht] at h
    cases g with
    | engine => exact absurd h.symm (Nat.succ_ne_zero n)
    | host => exact ⟨ts, s.draws, drawTurn_listed ht, Nat.succ.inj h⟩

/-! ### A pending command is performed -/

/-- After at most `n` steps from `s` the run stops outside the window, or it comes to the step that performs the
pending command `p` or drops it at a reset. -/
def LeavesPendingWithin (p : Pending) (n : Nat) (s : State) : Prop :=
  ∃ k, k ≤ n ∧
    (Host.Core.run core (k + 1) s = .fault .outsideWindow ∨
      ∃ u t, Host.Core.run core k s = .next u ∧ u.pending = some p ∧ step u = .next t ∧ t.pending = none ∧
        (step u = exec p.instr u.nextAgent.2 ∨
          ∃ rest, u.host = .reset :: rest ∧ step u = hostStep u.nextAgent.2))

theorem LeavesPendingWithin.mono {p : Pending} {m n : Nat} {s : State} (h : LeavesPendingWithin p m s) (hmn : m ≤ n) :
    LeavesPendingWithin p n s := by
  obtain ⟨k, hk, hrun⟩ := h
  exact ⟨k, hk.trans hmn, hrun⟩

/-- The bound goes up by 1 for a step before. -/
theorem LeavesPendingWithin.of_step {p : Pending} {n : Nat} {s u : State} (hs : step s = .next u)
    (h : LeavesPendingWithin p n u) : LeavesPendingWithin p (n + 1) s := by
  obtain ⟨k, hk, hrun⟩ := h
  refine ⟨k + 1, Nat.succ_le_succ hk, ?_⟩
  rwa [run_succ_next hs, run_succ_next hs]

/-- The engine's step is the one that performs the command. -/
theorem LeavesPendingWithin.of_engine {p : Pending} {s s' : State} (n : Nat) (hi : s.seq = none)
    (hp : s.pending = some p) (hn : s.nextAgent = (some .engine, s')) : LeavesPendingWithin p n s := by
  have hp' : s'.pending = some p := by
    obtain ⟨ts, d, hf⟩ := nextAgent_frame s
    rw [hn] at hf
    exact (congrArg State.pending hf).trans hp
  have hstep : step s = exec p.instr s' := (step_of_engine hi hn).trans (engineStep_pending hp')
  exact ⟨0, Nat.zero_le n, .inr ⟨s, _, rfl, hp, hstep.trans (exec_pending hp'), rfl, .inl (by rw [hstep, hn])⟩⟩

/-- By induction on the host's turns before the engine's next: the host's step stops the run, drops the command at a
reset, or leaves it pending with one turn less. -/
theorem leavesPendingWithin_hostTurns {p : Pending} (n : Nat) {s : State} (hi : s.seq = none) (hp : s.pending = some p)
    (hn : s.hostTurns = n) : LeavesPendingWithin p n s := by
  induction n generalizing s with
  | zero =>
    by_cases hh : s.host = []
    · exact .of_engine 0 hi hp (nextAgent_engine (engineReady_of_pending hp) (hostReady_eq_false hh))
    · obtain ⟨s', hd⟩ := drawTurn_of_hostTurns_zero hn
      exact .of_engine 0 hi hp (nextAgent_of_drawTurn hp hh hd)
  | succ n ih =>
    by_cases hh : s.host = []
    · exact .of_engine _ hi hp (nextAgent_engine (engineReady_of_pending hp) (hostReady_eq_false hh))
    · obtain ⟨ts, d, hd, hturns⟩ := drawTurn_of_hostTurns_succ hn
      have hagent := nextAgent_of_drawTurn hp hh hd
      have hstep := step_of_host hi hagent
      rcases stepStopsOnlyOutsideTheWindow s with ⟨t, ht⟩ | ⟨hf, -⟩
      · rcases hostStep_pending (s := { s with turns := ts, draws := d }) hp (hstep.symm.trans ht) with
          ⟨hreset, hnone⟩ | ⟨hseq, hpend, hts, hds⟩
        · obtain ⟨rest, hrest⟩ := hreset
          exact ⟨0, Nat.zero_le _, .inr ⟨s, t, rfl, hp, ht, hnone, .inr ⟨rest, hrest, by rw [hstep, hagent]⟩⟩⟩
        · refine .of_step ht (ih (hseq.trans hi) hpend ?_)
          rw [State.hostTurns, hts, hds, hturns]
      · exact ⟨0, Nat.zero_le _, .inl (run_succ_fault hf 0)⟩

/-- Settles O10: the host's turns before the engine's next bound the steps, by induction on their number. -/
theorem pendingCommandIsPerformed : Obligations.PendingCommandIsPerformed := fun s _ hi hp =>
  (leavesPendingWithin_hostTurns s.hostTurns hi hp rfl).mono s.hostTurns_le

/-! ### The loop WAIT -/

/-- A pass of WAIT that reads BUSY = 1 leaves WAIT at the head of the host's list. -/
theorem hostStep_wait_of_pending {s : State} {p : Pending} {rest : List HostAction} (hp : s.pending = some p)
    (hh : s.host = .wait :: rest) : hostStep s = .next { s with reads := s.reads ++ [s.statusWord] } := by
  have hbusy : State.busy { s with host := rest } = true := (busy_iff _).mpr ⟨p, hp⟩
  rw [hostStep_cons hh, hostAct, State.pollStatus_eq, hbusy, if_pos rfl]
  exact congrArg (fun l => Host.Outcome.next { s with host := l, reads := s.reads ++ [s.statusWord] }) hh.symm

/-- The pass of WAIT that reads BUSY = 0 ends the loop. -/
theorem step_wait_of_idle {s : State} {rest : List HostAction} (hi : s.seq = none) (hp : s.pending = none)
    (hh : s.host = .wait :: rest) : step s = .next { s with host := rest, reads := s.reads ++ [s.statusWord] } := by
  have hbusy : State.busy { s with host := rest } = false := busy_eq_false hp
  rw [step_of_idle hi hp hh, hostAct, State.pollStatus_eq, hbusy]
  rfl

/-- Settles O12: the value is the STATUS word, whose bit 0 is BUSY. -/
theorem waitEndsWhenNotBusy : Obligations.WaitEndsWhenNotBusy := by
  intro s rest hi hh
  have hne : s.host ≠ [] := hh ▸ List.cons_ne_nil _ _
  refine ⟨s.statusWord, busRead_status s, ?_, fun p ts hp ht => ?_, fun p ts hp ht => ?_, fun hp => ?_⟩
  · rw [s.statusWord_busy, busy_iff, Option.ne_none_iff_exists']
  · rw [step_of_host_turn hi hp hne (drawTurn_listed ht)]
    exact hostStep_wait_of_pending (s := { s with turns := ts }) hp hh
  · exact step_of_engine_turn hi hp hne (drawTurn_listed ht)
  · exact step_wait_of_idle hi hp hh

/-- From `s` the loop WAIT reads BUSY = 1 some number of times, at most `n`, and after the engine's step BUSY = 0;
`rest` is then what the host goes on with. -/
def WaitEndsWithin (n : Nat) (rest : List HostAction) (s : State) : Prop :=
  ∃ (t : State) (polls : List Word) (v : Word), polls.length ≤ n ∧
    Host.Core.run core (polls.length + 2) s = .next t ∧ t.host = rest ∧ t.pending = none ∧
    t.reads = s.reads ++ polls ++ [v] ∧ (∀ w ∈ polls, w.getLsbD 0 = true) ∧ v.getLsbD 0 = false

/-- The engine's step, and the pass that reads BUSY = 0. -/
theorem WaitEndsWithin.of_engine {s s' : State} {p : Pending} {rest : List HostAction} (hi : s.seq = none)
    (hp : s.pending = some p) (hh : s.host = .wait :: rest) (hd : s.drawTurn = (.engine, s')) :
    WaitEndsWithin 0 rest s := by
  obtain ⟨ts, d, hf⟩ := drawTurn_frame s
  rw [hd] at hf
  obtain rfl : s' = { s with turns := ts, draws := d } := hf
  set u := { p.perform { s with turns := ts, draws := d } with pending := none }
  have hperf : step s = .next u :=
    (step_of_engine_turn hi hp (hh ▸ List.cons_ne_nil _ _) hd).trans
      (exec_pending (s := { s with turns := ts, draws := d }) hp)
  have hlast := step_wait_of_idle (s := u) (rest := rest) (p.perform_seq hi) rfl ((p.perform_host _).trans hh)
  refine ⟨_, [], u.statusWord, Nat.le_refl 0, (run_succ_next hperf 1).trans (run_succ_next hlast 0), rfl, rfl, ?_,
    fun _ => nofun, u.statusWord_busy⟩
  rw [List.append_nil]
  exact congrArg (· ++ [u.statusWord]) (p.perform_reads _)

/-- A pass that reads BUSY = 1, before the others. -/
theorem WaitEndsWithin.of_poll {n : Nat} {rest : List HostAction} {s u : State} {w : Word} (hs : step s = .next u)
    (hr : u.reads = s.reads ++ [w]) (hw : w.getLsbD 0 = true) (h : WaitEndsWithin n rest u) :
    WaitEndsWithin (n + 1) rest s := by
  obtain ⟨t, polls, v, hlen, hrun, hhost, hpend, hreads, hpolls, hv⟩ := h
  refine ⟨t, w :: polls, v, Nat.succ_le_succ hlen, (run_succ_next hs _).trans hrun, hhost, hpend, ?_,
    List.forall_mem_cons.mpr ⟨hw, hpolls⟩, hv⟩
  rw [hreads, hr]
  simp only [List.append_assoc, List.cons_append, List.nil_append]

theorem waitEndsWithin_hostTurns {p : Pending} {rest : List HostAction} (n : Nat) {s : State} (hi : s.seq = none)
    (hp : s.pending = some p) (hh : s.host = .wait :: rest) (hn : s.hostTurns = n) : WaitEndsWithin n rest s := by
  induction n generalizing s with
  | zero =>
    obtain ⟨s', hd⟩ := drawTurn_of_hostTurns_zero hn
    exact .of_engine hi hp hh hd
  | succ n ih =>
    obtain ⟨ts, d, hd, hturns⟩ := drawTurn_of_hostTurns_succ hn
    have hs := (step_of_host_turn hi hp (hh ▸ List.cons_ne_nil _ _) hd).trans
      (hostStep_wait_of_pending (s := { s with turns := ts, draws := d }) hp hh)
    exact .of_poll hs rfl ((State.statusWord_busy _).trans ((busy_iff s).mpr ⟨p, hp⟩)) (ih hi hp hh hturns)

/-- Settles O47: one pass on an idle instance; else the passes of the host's turns before the engine's next, by
induction on their number. -/
theorem waitLoopEndsInTheFirstNotBusyRead : Obligations.WaitLoopEndsInTheFirstNotBusyRead := by
  intro s rest hi hh
  cases hp : s.pending with
  | none =>
    have hv : s.statusWord.getLsbD 0 = false := s.statusWord_busy.trans (busy_eq_false hp)
    refine ⟨1, _, [], s.statusWord, by omega, run_succ_next (step_wait_of_idle hi hp hh) 0, rfl, hp, ?_,
      fun _ => nofun, hv, fun _ => ⟨rfl, rfl⟩, fun h => absurd rfl h⟩
    rw [List.append_nil]
  | some p =>
    obtain ⟨t, polls, v, hlen, hrun, hhost, hpend, hreads, hpolls, hv⟩ := waitEndsWithin_hostTurns _ hi hp hh rfl
    have hle := s.hostTurns_le
    exact ⟨_, t, polls, v, by omega, hrun, hhost, hpend, hreads, hpolls, hv, nofun, fun _ => rfl⟩

end Sys2Proof.Machine
end

section
/-! PROOFS. What every step keeps (10_state.md R20 to R43): the invariant from reset on, DIGEST and DVALID between two
lifecycle events, and STATE between two transforms. -/

namespace Sys2Proof.Machine

/-! ### What a step that answers a next state has done -/

/-- The next states of a step: after a step form, after the engine's performance, after a host action, or no change. -/
inductive StepEffect (s : State) : State → Prop where
  | sequencer (i : BitVec 6) (hi : s.seq = some i) :
      StepEffect s
        (State.advanceSeq i { s with work := { s.work with cur := stepWords (mixOf i) i s.work.cur s.work.m } })
  | engine (p : Pending) (ts : List Agent) (d : Nat) (hi : s.seq = none) (hp : s.pending = some p) :
      StepEffect s { p.perform { s with turns := ts, draws := d } with pending := none }
  | host {t : State} (a : HostAction) (rest : List HostAction) (ts : List Agent) (d : Nat) (hi : s.seq = none)
      (hh : s.host = a :: rest) (he : HostEffect a { s with turns := ts, draws := d, host := rest } t) :
      StepEffect s t
  | idle (hi : s.seq = none) (hp : s.pending = none) : StepEffect s s

theorem step_effect {s t : State} (h : step s = .next t) : StepEffect s t := by
  have hc := step_case s
  generalize step s = r at h hc
  cases hc with
  | sequencer i hi =>
    rw [exec_decodeStep] at h
    obtain rfl := Host.Outcome.next.inj h
    exact .sequencer i hi
  | engine p ts d hi hp =>
    rw [exec_pending (s := { s with turns := ts, draws := d }) hp] at h
    obtain rfl := Host.Outcome.next.inj h
    exact .engine p ts d hi hp
  | host a rest ts d hi hh _ => exact .host a rest ts d hi hh (hostAct_effect h)
  | idle hi hp _ =>
    obtain rfl := Host.Outcome.next.inj h
    exact .idle hi hp

/-! ### The operations of a pending command -/

theorem Pending.perform_of_init {p : Pending} (h : p.op = .init) (s : State) : p.perform s = performInit s := by
  rw [Pending.perform, h]

theorem Pending.perform_of_update {p : Pending} (h : p.op = .update) (s : State) :
    p.perform s = performUpdate p.n.val p.snap s := by
  rw [Pending.perform, h]

theorem Pending.perform_of_final {p : Pending} (h : p.op = .final) (s : State) : p.perform s = performFinal s := by
  rw [Pending.perform, h]

/-! ### The invariant -/

/-- The invariant speaks of no error flag, of DIN and the working state, or of the host's list, turns and reads. -/
theorem State.Inv.of_frame {s : State} (h : s.Inv) (e : ErrFlags) (v : Word) (w : Work) (l : List HostAction)
    (ts : List Agent) (r : List Word) (d : Nat) :
    State.Inv { s with err := e, din := v, work := w, host := l, turns := ts, reads := r, draws := d } :=
  ⟨h.seqIdle, h.baseAligned, h.wholeBytes, h.dvalidDone, h.digestZero, h.wiped, h.pendingActive, h.pendingCount⟩

/-- The lifecycle starts outside ACTIVE, with the context wiped, DIGEST 0 and DVALID 0 (10 R43). -/
theorem State.inv_resetAt {b : Nat} (hb : b % 64 = 0) : (State.resetAt b).Inv where
  seqIdle := rfl
  baseAligned := hb
  wholeBytes := rfl
  dvalidDone := by simp
  digestZero _ := rfl
  wiped _ := rfl
  pendingActive := nofun
  pendingCount := nofun

/-- Settles O14: the window at 0 is one of the aligned ones. -/
theorem resetMeetsTheInvariant : Obligations.ResetMeetsTheInvariant :=
  ⟨State.inv_resetAt rfl, fun _ => State.inv_resetAt⟩

/-- Whole bytes stay whole, also where the counter wraps (10 R24). -/
theorem addBits_wholeBytes {b : BitVec 64} (n : Nat) (h : b.toNat % 8 = 0) : (addBits b n).toNat % 8 = 0 := by
  rw [addBits, BitVec.toNat_add, BitVec.toNat_ofNat]
  omega

/-- The engine's step keeps the invariant: each command leaves the PHASE its context and DIGEST belong to. -/
theorem State.Inv.performed {s : State} {p : Pending} (h : s.Inv) (hp : s.pending = some p) :
    State.Inv { p.perform s with pending := none } := by
  have hseq : (p.perform s).seq = none := p.perform_seq h.seqIdle
  have hbase : (p.perform s).base % Config.windowSize = 0 := (p.perform_base s).symm ▸ h.baseAligned
  cases hop : p.op with
  | init =>
    rw [Pending.perform_of_init hop] at hseq hbase ⊢
    exact ⟨hseq, hbase, rfl, by simp, fun _ => rfl, fun hph => absurd rfl hph, nofun, nofun⟩
  | update =>
    have hactive : s.phase = .active := h.pendingActive p hp (by rw [hop]; decide)
    rw [Pending.perform_of_update hop] at hseq hbase ⊢
    refine ⟨hseq, hbase, ?_, ?_, ?_, ?_, nofun, nofun⟩
    · simpa using addBits_wholeBytes p.n.val h.wholeBytes
    · simpa using h.dvalidDone
    · simpa using h.digestZero
    · simp [hactive]
  | final =>
    rw [Pending.perform_of_final hop] at hseq hbase ⊢
    exact ⟨hseq, hbase, rfl, by simp, nofun, fun _ => rfl, nofun, nofun⟩

/-- Every effect of a host action keeps the invariant: only an acceptance and a reset change what it speaks of. -/
theorem HostEffect.inv {a : HostAction} {s t : State} (h : HostEffect a s t) (hs : s.Inv) : t.Inv := by
  cases h with
  | read | error | din | clear | poll => exact hs.of_frame _ _ _ _ _ _ _
  | accept op n _ ha hn =>
    refine ⟨hs.seqIdle, hs.baseAligned, hs.wholeBytes, hs.dvalidDone, hs.digestZero, hs.wiped, fun p hp hop => ?_,
      fun p hp hop => ?_⟩
    · obtain rfl := Option.some.inj hp
      exact ha.resolve_left hop
    · obtain rfl := Option.some.inj hp
      exact hn hop
  | reset => exact (State.inv_resetAt hs.baseAligned).of_frame _ _ _ _ _ _ _

/-- Settles O15: no transform is under way, and the engine and the host keep the invariant. -/
theorem stepKeepsTheInvariant : Obligations.StepKeepsTheInvariant := by
  intro s t hs h
  cases step_effect h with
  | sequencer i hi => exact nomatch hi.symm.trans hs.seqIdle
  | engine p ts d _ hp => exact (hs.of_frame s.err s.din s.work s.host ts s.reads d).performed hp
  | host a rest ts d _ _ he => exact he.inv (hs.of_frame s.err s.din s.work rest ts s.reads d)
  | idle => exact hs

/-! ### DIGEST and DVALID -/

theorem State.advanceSeq_digest (i : BitVec 6) (s : State) : (s.advanceSeq i).digest = s.digest := by
  unfold State.advanceSeq; split <;> rfl

theorem State.advanceSeq_dvalid (i : BitVec 6) (s : State) : (s.advanceSeq i).dvalid = s.dvalid := by
  unfold State.advanceSeq; split <;> rfl

/-- Only a reset of the host changes DIGEST or DVALID. -/
theorem HostEffect.digest {a : HostAction} {s t : State} (h : HostEffect a s t) :
    (t.digest = s.digest ∧ t.dvalid = s.dvalid) ∨ (a = .reset ∧ t = s.resetEvent) := by
  cases h with
  | reset ha => exact .inr ⟨ha, rfl⟩
  | _ => exact .inl ⟨rfl, rfl⟩

/-- Settles O32: of the engine's operations UPDATE alone keeps DIGEST, and of the host's actions all but the reset. -/
theorem digestIsKeptUntilInitFinalOrReset : Obligations.DigestIsKeptUntilInitFinalOrReset := by
  intro s t h
  cases step_effect h with
  | sequencer => exact .inl ⟨State.advanceSeq_digest _ _, State.advanceSeq_dvalid _ _⟩
  | engine p ts d _ hp =>
    cases hop : p.op with
    | init =>
      rw [Pending.perform_of_init hop]
      exact .inr (.inl ⟨p, hp, hop, rfl, rfl, rfl⟩)
    | update =>
      rw [Pending.perform_of_update hop]
      exact .inl ⟨performUpdate_digest _ _ _, performUpdate_dvalid _ _ _⟩
    | final =>
      rw [Pending.perform_of_final hop]
      exact .inr (.inr (.inl ⟨p, hp, hop, rfl, finished_state s.ctx, rfl⟩))
  | host a rest ts d _ hh he =>
    rcases he.digest with hkept | ⟨rfl, rfl⟩
    · exact .inl hkept
    · exact .inr (.inr (.inr ⟨rest, hh, rfl, rfl, rfl⟩))
  | idle => exact .inl ⟨rfl, rfl⟩

/-! ### STATE -/

/-- An UPDATE that completes the block transforms BUF filled up with the first bytes of the data (40 R112). -/
theorem absorb_lanes_state_of_one_block {c : Ctx} {n : Fin 5} (v : Word) (h : 64 ≤ c.fill + n.val) :
    (absorb c (lanes v n.val)).state =
      transform c.state (bufWriteRun c.buf c.fill ((lanes v n.val).take (64 - c.fill))) := by
  have hf := c.fill_lt
  have hn := n.isLt
  have hlen := lanes_length v n.val
  rw [bufWriteRun_full c _ (by omega), absorb_of_one_block (by omega) (by omega)]

/-- No host action but a reset changes STATE or drops a pending command. -/
theorem HostEffect.state {a : HostAction} {s t : State} (h : HostEffect a s t) :
    (t.ctx.state = s.ctx.state ∧ ∀ p, s.pending = some p → t.pending = some p) ∨ (a = .reset ∧ t = s.resetEvent) := by
  cases h with
  | reset ha => exact .inr ⟨ha, rfl⟩
  | accept op n hp => exact .inl ⟨rfl, fun p hp' => nomatch hp.symm.trans hp'⟩
  | _ => exact .inl ⟨rfl, fun _ hp => hp⟩

/-- Settles O33: an UPDATE transforms exactly where it completes the block; INIT, FINAL and the reset set STATE. -/
theorem stateChangesOnlyByATransform : Obligations.StateChangesOnlyByATransform := by
  intro s t hi _ h
  cases step_effect h with
  | sequencer i hi' => exact nomatch hi'.symm.trans hi
  | engine p ts d _ hp =>
    cases hop : p.op with
    | init =>
      rw [Pending.perform_of_init hop]
      exact .inr (.inr (.inl ⟨p, hp, hop, rfl, rfl⟩))
    | update =>
      rw [Pending.perform_of_update hop]
      have hctx := congrArg Ctx.state (performUpdate_ctx p.n.val p.snap { s with turns := ts, draws := d })
      by_cases hfull : 64 ≤ s.ctx.fill + p.n.val
      · exact .inr (.inl ⟨p, hp, hop, hfull, rfl, hctx.trans (absorb_lanes_state_of_one_block p.snap hfull)⟩)
      · have hlt : s.ctx.fill + p.n.val < 64 := Nat.lt_of_not_le hfull
        have hkept : (absorb s.ctx (lanes p.snap p.n.val)).state = s.ctx.state := by
          rw [absorb_of_lt (by rwa [lanes_length])]
        refine .inl ⟨hctx.trans hkept, fun q hq => .inr ?_⟩
        obtain rfl := Option.some.inj (hp.symm.trans hq)
        exact ⟨hop, hlt⟩
    | final =>
      rw [Pending.perform_of_final hop]
      exact .inr (.inr (.inr (.inl ⟨p, hp, hop, rfl, rfl⟩)))
  | host a rest ts d _ hh he =>
    rcases he.state with ⟨hstate, hpend⟩ | ⟨rfl, rfl⟩
    · exact .inl ⟨hstate, fun p hp => .inl (hpend p hp)⟩
    · exact .inr (.inr (.inr (.inr ⟨rest, hh, rfl, rfl⟩)))
  | idle _ hp => exact .inl ⟨rfl, fun q hq => nomatch hp.symm.trans hq⟩

end Sys2Proof.Machine
end

section
/-! PROOFS. Feeding a message (40_context_ops.md R114 to R117, 41_finalization.md R138): each command written and
performed, the context after any chunking, and the digest. -/

namespace Sys2Proof.Machine

/-- Settles O28: no lane is absorbed and no block completed (40 R115). -/
theorem updateZeroChangesOnlyPending : Obligations.UpdateZeroChangesOnlyPending := by
  intro s p hp
  have hlt : s.ctx.fill + 0 < 64 := s.ctx.fill_lt
  have habsorb : absorb s.ctx (lanes p.snap 0) = s.ctx := absorb_nil s.ctx
  have hperform : performUpdate 0 p.snap s = s := by rw [performUpdate_of_lt p.snap hlt, habsorb]
  rw [exec_update (n := 0) (by decide), runCommand_pending hp]
  exact congrArg (fun t : State => Host.Outcome.next { t with pending := none }) hperform

/-! ### A command written and performed -/

/-- A legal word that passes the checks is performed with DIN as its snapshot. -/
theorem commandDone_of_admitted {s : State} {w : Word} {i : Instr} (hp : s.pending = none)
    (hw : decodeCmd w = .ok i) (hadm : i = .init ∨ s.phase = .active) :
    ∃ p : Pending, p.instr = i ∧ p.n.val = (cmdN w).toNat ∧ p.snap = s.din ∧
      commandDone w s = .next { p.perform { s with pending := some p } with pending := none } := by
  have hphase : w ∈ activeWords → s.phase = .active := fun hm =>
    hadm.resolve_left ((mem_activeWords_iff_ne_init hw).mp hm)
  obtain ⟨p, hi, hn, hsnap, h⟩ := cmdWrite_of_admitted hp hw hphase
  refine ⟨p, hi, hn, hsnap, ?_⟩
  rw [commandDone, h]
  exact (engineStep_pending rfl).trans (exec_pending (s := { s with pending := some p }) rfl)

theorem Pending.instr_eq_final_iff (p : Pending) : p.instr = .final ↔ p.op = .final := by
  obtain ⟨op, n, v⟩ := p
  cases op <;> simp [Pending.instr]

theorem Pending.op_of_instr_update {p : Pending} {m : BitVec 3} (h : p.instr = .update m) : p.op = .update := by
  obtain ⟨op, n, v⟩ := p
  cases op <;> simp_all [Pending.instr]

/-- INIT written and performed: a fresh context in ACTIVE (40 R110). -/
theorem commandDone_init {s : State} (hp : s.pending = none) :
    ∃ t, commandDone 0x00000001 s = .next t ∧ t.ctx = Ctx.initial ∧ t.phase = .active ∧ t.pending = none ∧
      t.err = s.err := by
  obtain ⟨p, hi, -, -, h⟩ := commandDone_of_admitted (w := 0x00000001) (i := .init) hp (by decide) (.inl rfl)
  rw [Pending.perform_of_init (p.instr_eq_init_iff.mp hi)] at h
  exact ⟨_, h, rfl, rfl, rfl, rfl⟩

/-- FINAL written and performed: the digest of the finished context, and the wipe (41 R130). -/
theorem commandDone_final {s : State} (hp : s.pending = none) (hphase : s.phase = .active) :
    ∃ t, commandDone 0x00000003 s = .next t ∧ t.digest = (finished s.ctx).state ∧ t.dvalid = true ∧ t.phase = .done ∧
      t.pending = none ∧ t.ctx = Ctx.zero ∧ t.err = s.err := by
  obtain ⟨p, hi, -, -, h⟩ := commandDone_of_admitted (w := 0x00000003) (i := .final) hp (by decide) (.inr hphase)
  rw [Pending.perform_of_final (p.instr_eq_final_iff.mp hi)] at h
  exact ⟨_, h, rfl, rfl, rfl, rfl, rfl, rfl⟩

/-- `t` is `s` after the bytes `data` were fed: the context has absorbed them, but for the stale bytes of BUF. -/
structure Fed (data : List Byte) (s t : State) : Prop where
  ctx : t.ctx.Agree (absorb s.ctx data)
  phase : t.phase = .active
  pending : t.pending = none
  err : t.err = s.err

/-- One chunk fed: its bytes are absorbed (40 R111). -/
theorem feedChunk_fed (c : Chunk) {s : State} (hp : s.pending = none) (hphase : s.phase = .active) :
    ∃ t, feedChunk c s = .next t ∧ Fed (chunkBytes c) s t := by
  have hword : ∀ n : Fin 5,
      decodeCmd (BitVec.ofNat 32 (encode (.update (BitVec.ofNat 3 n.val)))) = .ok (.update (BitVec.ofNat 3 n.val)) ∧
      (cmdN (BitVec.ofNat 32 (encode (.update (BitVec.ofNat 3 n.val))))).toNat = n.val := by decide
  obtain ⟨hdecode, hcount⟩ := hword c.1
  obtain ⟨p, hi, hn, hsnap, h⟩ := commandDone_of_admitted (s := { s with din := c.2 }) hp hdecode (.inr hphase)
  rw [Pending.perform_of_update (Pending.op_of_instr_update hi), hn, hcount, hsnap] at h
  refine ⟨_, h, ?_, ?_, rfl, ?_⟩
  · simpa [chunkBytes] using Ctx.Agree.refl _
  · simpa using hphase
  · simp

/-- Chunks fed in order: all their bytes are absorbed. -/
theorem feedChunks_fed (cs : List Chunk) {s : State} (hp : s.pending = none) (hphase : s.phase = .active) :
    ∃ t, feedChunks cs s = .next t ∧ Fed (chunksBytes cs) s t := by
  induction cs generalizing s with
  | nil =>
    refine ⟨s, rfl, ?_, hphase, hp, rfl⟩
    rw [chunksBytes, List.flatMap_nil, absorb_nil]
    exact .refl _
  | cons c cs ih =>
    obtain ⟨t, ht, hfed⟩ := feedChunk_fed c hp hphase
    obtain ⟨u, hu, hfed'⟩ := ih hfed.pending hfed.phase
    refine ⟨u, ?_, ?_, hfed'.phase, hfed'.pending, hfed'.err.trans hfed.err⟩
    · rw [feedChunks, ht]
      exact hu
    · rw [chunksBytes, List.flatMap_cons, ← chunksBytes]
      exact (hfed'.ctx.trans (absorb_agree hfed.ctx _)).trans (absorb_absorb _ _ _)

/-! ### Two chunkings of the same bytes -/

/-- FINAL does not read the stale bytes of BUF. -/
theorem finished_agree {c d : Ctx} (h : c.Agree d) : (finished c).Agree (finished d) := by
  rw [finished, finished, h.fill, h.bitCount]
  exact absorb_agree (absorb_agree h _) _

/-- The unconsumed input holds the bytes of BUF below the fill. -/
theorem Ctx.Agree.buf_get {c d : Ctx} (h : c.Agree d) {j : Nat} (hj : j < c.fill) : c.buf.get j = d.buf.get j := by
  rw [← c.tail_getD j hj, ← d.tail_getD j (h.fill ▸ hj), h.tail]

/-- Settles O34: both chunkings absorb the same bytes, and FINAL reads no more of the context than they agree on. -/
theorem streamingEquivalence : Obligations.StreamingEquivalence := by
  intro s cs cs' hp hphase hbytes
  obtain ⟨t, ht, hfed⟩ := feedChunks_fed cs hp hphase
  obtain ⟨t', ht', hfed'⟩ := feedChunks_fed cs' hp hphase
  have hagree : t.ctx.Agree t'.ctx := hfed.ctx.trans (hbytes ▸ hfed'.ctx.symm)
  obtain ⟨u, hu, hdigest, -⟩ := commandDone_final hfed.pending hfed.phase
  obtain ⟨u', hu', hdigest', -⟩ := commandDone_final hfed'.pending hfed'.phase
  refine ⟨t, t', u, u', ht, ht', hagree.state, hagree.bitCount, fun j hj => hagree.buf_get hj, hu, hu', ?_⟩
  rw [hdigest, hdigest', (finished_agree hagree).state]

/-! ### The context and the digest of a message -/

/-- From the initial context, Absorb transforms the whole blocks of the message and keeps the rest (40 R117). -/
theorem absorb_initial_state (msg : List Byte) :
    (absorb Ctx.initial msg).state = transformSpans (msg.length / 64) Ctx.initial.state msg :=
  (absorb_spec Ctx.initial msg).1

theorem absorb_initial_tail (msg : List Byte) : (absorb Ctx.initial msg).tail = msg.drop (64 * (msg.length / 64)) :=
  (absorb_spec Ctx.initial msg).2

theorem absorb_initial_bitCount (msg : List Byte) :
    (absorb Ctx.initial msg).bitCount = BitVec.ofNat 64 (8 * msg.length) := by
  rw [absorb_bitCount, addBits]
  exact BitVec.zero_add _

theorem absorb_initial_fill (msg : List Byte) : (absorb Ctx.initial msg).fill = msg.length % 64 := by
  rw [absorb_fill, Ctx.fill_initial, Nat.zero_add]

/-- Below the fill BUF holds the last bytes of the message. -/
theorem absorb_initial_buf_get (msg : List Byte) {j : Nat} (hj : j < (absorb Ctx.initial msg).fill) :
    (absorb Ctx.initial msg).buf.get j = msg.getD (msg.length - (absorb Ctx.initial msg).fill + j) 0 := by
  have hstart : msg.length - msg.length % 64 = 64 * (msg.length / 64) := by omega
  rw [← Ctx.tail_getD _ j hj, absorb_initial_tail, absorb_initial_fill, hstart]
  simp only [List.getD_eq_getElem?_getD, List.getElem?_drop]

/-- Settles O35: INIT leaves the initial context, which has then absorbed the message. -/
theorem contextAfterFeeding : Obligations.ContextAfterFeeding := by
  intro s cs msg hp hmsg
  obtain ⟨t, ht, hctx, hphase, hpend, -⟩ := commandDone_init hp
  obtain ⟨u, hu, hfed⟩ := feedChunks_fed cs hpend hphase
  have hagree : u.ctx.Agree (absorb Ctx.initial msg) := by
    rw [← hctx, ← hmsg]
    exact hfed.ctx
  refine ⟨t, u, ht, hu, hfed.phase, hfed.pending, hagree.bitCount.trans (absorb_initial_bitCount msg),
    hagree.fill.trans (absorb_initial_fill msg), hagree.state.trans (absorb_initial_state msg), fun j hj => ?_⟩
  rw [hagree.buf_get hj, hagree.fill]
  exact absorb_initial_buf_get msg (hagree.fill ▸ hj)

/-- FINAL on the context of a message transforms the blocks of its padding (41 R138). -/
theorem finished_absorb_initial (msg : List Byte) : (finished (absorb Ctx.initial msg)).state = digestOf msg := by
  have hpadded : absorb (absorb (absorb Ctx.initial msg) (padBytes (msg.length % 64)))
      (lengthBytes (BitVec.ofNat 64 (8 * msg.length))) |>.Agree (absorb Ctx.initial (paddedMessage msg)) :=
    (absorb_agree (absorb_absorb _ _ _) _).trans (absorb_absorb _ _ _)
  rw [finished, absorb_initial_fill, absorb_initial_bitCount, hpadded.state, absorb_initial_state, digestOf]

/-- Settles O36: the context FINAL meets agrees with the one that has absorbed the message. -/
theorem digestOfAnyChunking : Obligations.DigestOfAnyChunking := by
  intro s cs hp
  obtain ⟨t, ht, hctx, hphase, hpend, herr⟩ := commandDone_init hp
  obtain ⟨u, hu, hfed⟩ := feedChunks_fed cs hpend hphase
  obtain ⟨x, hx, hdigest, hdvalid, hdone, hnone, hzero, herr'⟩ := commandDone_final hfed.pending hfed.phase
  have hrun : hashChunks cs s = .next x := by
    rw [hashChunks, ht]
    simp only [andThen, hu, hx]
  refine ⟨x, hrun, ?_, hdvalid, hdone, hnone, hzero, herr'.trans (hfed.err.trans herr)⟩
  rw [hdigest, (finished_agree hfed.ctx).state, hctx, finished_absorb_initial]

end Sys2Proof.Machine
end

section
/-! PROOFS. The machine's own transform (42_block_transform.md R151 to R154) and the round constants as sines
(43_round_processor.md R176). -/

namespace Sys2Proof.Machine

/-! ### Sixty-four steps -/

/-- Steps 0 to 62, then step 63. -/
theorem stepIndices_eq_append_last :
    stepIndices = (List.range' 0 63).map (BitVec.ofNat 6) ++ [63] := by decide

/-- The last step of a transform: the counter stops and STATE takes the feed-forward (42 R154). -/
theorem step_last {s : State} (hs : s.seq = some 63) :
    step s = .next
      { s with
        seq := none
        ctx := { s.ctx with state := feedForward s.work.saved (stepWords (mixOf 63) 63 s.work.cur s.work.m) }
        work := { s.work with cur := stepWords (mixOf 63) 63 s.work.cur s.work.m } } := by
  rw [step_of_seq hs, exec_decodeStep]
  rfl

/-- The last step, on the words that the others leave. -/
theorem runSteps_append_last (m : Vector Word 16) (is : List (BitVec 6)) (i : BitVec 6) (q : Quad) :
    runSteps m (is ++ [i]) q = stepWords (mixOf i) i (runSteps m is q) m :=
  runSteps_append m is [i] q

/-- The words that a transform of the block `m` has before its step 63 (42 R153). -/
def wordsBeforeLast (m : Vector Word 16) (q : Quad) : Quad :=
  runSteps m ((List.range' 0 63).map (BitVec.ofNat 6)) q

/-- A transform ends with step 63 and the feed-forward. -/
theorem transform_eq_last (st : Quad) (blk : Block) :
    transform st blk =
      feedForward st (stepWords (mixOf 63) 63 (wordsBeforeLast (decodeBlock blk) st) (decodeBlock blk)) := by
  rw [transform, stepIndices_eq_append_last, runSteps_append_last, wordsBeforeLast]

/-- Sixty-three steps of a transform that has reached step 0. -/
theorem run_to_last {s : State} (hseq : s.seq = some 0) :
    Host.Core.run core 63 s = .next
      { s with seq := some 63, work := { s.work with cur := wordsBeforeLast s.work.m s.work.cur } } :=
  run_transform 63 0 (Nat.le_refl 63) s hseq

/-- The last step of a run whose first 63 steps have left the working words `q`. The words are a variable here, so that
the kernel compares them by name and does not compute 63 steps. -/
theorem run_sixtyFour_of_last {s : State} {q : Quad}
    (hrun : Host.Core.run core 63 s = .next { s with seq := some 63, work := { s.work with cur := q } }) :
    Host.Core.run core 64 s = .next
      { s with
        seq := none
        ctx := { s.ctx with state := feedForward s.work.saved (stepWords (mixOf 63) 63 q s.work.m) }
        work := { s.work with cur := stepWords (mixOf 63) 63 q s.work.m } } :=
  (run_add 1 hrun).trans (run_succ_next (step_last rfl) 0)

/-- Settles O42: `transform` of the block makes the same 64 steps and the same feed-forward. -/
theorem sixtyFourStepsAreOneTransform : Obligations.SixtyFourStepsAreOneTransform := by
  intro s blk hseq hcur hsaved hm
  have hrun := run_sixtyFour_of_last (run_to_last hseq)
  rw [hm, hcur, hsaved, ← transform_eq_last] at hrun
  exact ⟨_, hrun⟩

/-! ### The round constants -/

/-- The integer approximation of the sine, with its error bar, lies between `K(i)` and `K(i) + 1`. -/
theorem roundConst_brackets_turned (i : BitVec 6) :
    ((roundConst i).toNat : ℤ) * 2 ^ 168 ≤ |(Laws.turned i.toNat).2| - 5 ^ (i.toNat + 1) ∧
      |(Laws.turned i.toNat).2| + 5 ^ (i.toNat + 1) < ((roundConst i).toNat + 1 : ℤ) * 2 ^ 168 := by
  revert i
  decide +kernel

/-- Settles O45: the approximation's error leaves each floor decided. -/
theorem roundConstantsAreTheSineFormula : Obligations.RoundConstantsAreTheSineFormula := by
  intro i
  obtain ⟨hlow, hhigh⟩ := roundConst_brackets_turned i
  have hclose := (Laws.turned_close i.toNat).2
  exact Laws.floor_of_close (by exact_mod_cast hclose) hlow hhigh

end Sys2Proof.Machine
end

section
/-! PROOFS. Several instances (60_exceptions.md R226, 20_memory.md R70): their windows, and the step of one of them. -/

namespace Sys2Proof.Machine

/-! ### The windows -/

/-- Two aligned windows that share an address are the same (00 R7). -/
theorem base_eq_of_offset {s t : State} {addr x y : Nat} (hs : s.base % Config.windowSize = 0)
    (ht : t.base % Config.windowSize = 0) (hx : s.offset addr = some x) (hy : t.offset addr = some y) :
    s.base = t.base := by
  have hws := State.mem_window_of_offset hx
  have hwt := State.mem_window_of_offset hy
  unfold Config.windowSize at hs ht
  omega

/-- Settles O44: the two windows are the same, and no two instances have the same BASE. -/
theorem windowsDoNotOverlap : Obligations.WindowsDoNotOverlap := by
  intro sys j k s t addr x y hwf hj hk hx hy
  obtain ⟨-, haligned, hdistinct⟩ := hwf
  have hbase := base_eq_of_offset (haligned s (List.mem_of_getElem? hj)) (haligned t (List.mem_of_getElem? hk)) hx hy
  have hlt : j < (sys.insts.map (·.base)).length := by
    rw [List.length_map]
    exact (List.getElem?_eq_some_iff.mp hj).1
  refine (List.getElem?_inj hlt hdistinct).mp ?_
  rw [List.getElem?_map, List.getElem?_map, hj, hk, Option.map_some, Option.map_some, hbase]

/-! ### The step of one instance -/

theorem State.advanceSeq_base (i : BitVec 6) (s : State) : (s.advanceSeq i).base = s.base := by
  unfold State.advanceSeq; split <;> rfl

theorem HostEffect.base {a : HostAction} {s t : State} (h : HostEffect a s t) : t.base = s.base := by
  cases h <;> rfl

/-- No step moves the window (log entry 1). -/
theorem step_base {s t : State} (h : step s = .next t) : t.base = s.base := by
  cases step_effect h with
  | sequencer => exact State.advanceSeq_base _ _
  | engine p => exact p.perform_base _
  | host _ _ _ _ _ _ he => exact he.base
  | idle => rfl

/-- A step of instance `k` is a step of its state alone, put back in its place; where there is no such instance
nothing happens. -/
theorem System.stepAt_next {sys sys' : System} {k : Nat} (h : sys.stepAt k = .next sys') :
    (sys.insts[k]? = none ∧ sys' = sys) ∨
      ∃ s t, sys.insts[k]? = some s ∧ step s = .next t ∧ sys' = { insts := sys.insts.set k t } := by
  unfold System.stepAt at h
  split at h
  · next hk => exact .inl ⟨hk, (Host.Outcome.next.inj h).symm⟩
  · next s hk =>
    split at h
    · next t ht => exact .inr ⟨s, t, hk, ht, (Host.Outcome.next.inj h).symm⟩
    · exact nomatch h
    · exact nomatch h

/-- A new state in the same window leaves the list of windows as it was. -/
theorem map_base_set {l : List State} {k : Nat} {s t : State} (hk : l[k]? = some s) (hb : t.base = s.base) :
    (l.set k t).map (·.base) = l.map (·.base) := by
  obtain ⟨hlt, rfl⟩ := List.getElem?_eq_some_iff.mp hk
  have hself : (l.map (·.base))[k]'(by simpa using hlt) = l[k].base := List.getElem_map _
  rw [List.map_set, hb, ← hself, List.set_getElem_self]

/-- Well-formedness speaks of the windows only. -/
theorem System.wf_iff (sys : System) :
    sys.wf ↔ sys.insts.map (·.base) ≠ [] ∧ (∀ b ∈ sys.insts.map (·.base), b % Config.windowSize = 0) ∧
      (sys.insts.map (·.base)).Nodup := by
  simp [System.wf]

/-- Settles O43: only place `k` of the list is written, with the next state of the state that stood there. -/
theorem instancesAreIndependent : Obligations.InstancesAreIndependent := by
  intro sys sys' k h
  rcases System.stepAt_next h with ⟨hk, rfl⟩ | ⟨s, t, hk, ht, rfl⟩
  · exact ⟨fun _ _ => rfl, fun s hs => absurd (hk.symm.trans hs) nofun, id⟩
  · refine ⟨fun j hj => List.getElem?_set_ne hj.symm, fun s' hs' => ?_, fun hwf => ?_⟩
    · obtain rfl := Option.some.inj (hk.symm.trans hs')
      exact ⟨t, ht, List.getElem?_set_self (List.getElem?_eq_some_iff.mp hk).1⟩
    · rw [System.wf_iff] at hwf ⊢
      rwa [map_base_set hk (step_base ht)]

end Sys2Proof.Machine
end
